-- ==== Sys2Proof/Word.lean ====
section
/-! DEFINITION. The word types of the core: a byte, the one-bit flag, a register index. -/

namespace Sys2Proof

/-- A byte: a memory cell, a general register, the program counter, an instruction byte
(rules R8, R9, R11: `CELL_W` = `REG_W` = `PC_W` = 8). -/
abbrev Byte := BitVec 8

/-- The flag register's one bit (rule R27: `FL_W` = 1). -/
abbrev Flag := BitVec 1

/-- A valid register index, 0 to 7 (rules R8, R21: `NREG` = 8). -/
abbrev RegIdx := Fin 8

end Sys2Proof
end

