-- ==== Sys2Proof/Machine/Flags.lean ====
section
/-! DEFINITION. The one flag computation, CMP's, and the two conditions that read FL. -/

namespace Sys2Proof.Machine

/-- The new FL of a comparison: 1 when the full 8-bit values are equal, else 0; less and greater are not
distinguished (rule R146). -/
def equalFlag (a b : Byte) : Flag := if a = b then 1 else 0

/-- JEQ's condition: the whole of FL is 1 (rule R176). -/
def takenIfEqual (fl : Flag) : Bool := fl == 1

/-- JNE's condition: the whole of FL is 0 (rule R178). -/
def takenIfNotEqual (fl : Flag) : Bool := fl == 0

end Sys2Proof.Machine
end

