-- ==== Sys2Proof/Machine/Memory.lean ====
section
/-! DEFINITION. The memory array `M` (rules R33, R50 to R52) as plain data in one canonical form. -/

namespace Sys2Proof.Machine

/-- The 256 byte-sized cells, code and data together (rule R33), as (address, byte) pairs. -/
abbrev Memory := List Host.Cell

/-- What an unlisted cell reads as: memory is "zero-initialized" (rules R8, R33, R45). -/
def Memory.unlisted : Byte := 0

/-- The cells from address `lo` up: addresses strictly rising, all below 256, none holding the value an
unlisted cell reads as. -/
def Memory.wfFrom : Nat → Memory → Bool
  | _, [] => true
  | lo, (a, v) :: rest =>
    decide (lo ≤ a) && decide (a < 256) && (v != Memory.unlisted) && Memory.wfFrom (a + 1) rest

/-- The canonical form: equal memories are equal lists. -/
def Memory.wf (m : Memory) : Bool := Memory.wfFrom 0 m

/-- Rule R51: a read returns the byte most recently written, or the initial 0, and changes nothing. -/
def Memory.read : Memory → Nat → Byte
  | [], _ => Memory.unlisted
  | (a, v) :: rest, addr => if a = addr then v else Memory.read rest addr

/-- Rule R52: a write sets one cell and changes nothing else. It keeps the canonical form: writing the
value an unlisted cell reads as removes the entry. -/
def Memory.write : Memory → Nat → Byte → Memory
  | [], addr, v => if v = Memory.unlisted then [] else [(addr, v)]
  | (a, w) :: rest, addr, v =>
    if addr < a then
      if v = Memory.unlisted then (a, w) :: rest else (addr, v) :: (a, w) :: rest
    else if addr = a then
      if v = Memory.unlisted then rest else (addr, v) :: rest
    else (a, w) :: Memory.write rest addr v

/-- The loader's writes (rule R37): the bytes in order, from address `addr` up. -/
def Memory.loadFrom : Memory → Nat → List Byte → Memory
  | m, _, [] => m
  | m, addr, b :: rest => Memory.loadFrom (Memory.write m addr b) (addr + 1) rest

end Sys2Proof.Machine
end

