-- ==== Sys2Proof/Machine/ResetValues.lean ====
section
/-! DEFINITION. The reset value of every piece of state (rule R45). -/

namespace Sys2Proof.Machine

/-- Reset value of R0 to R6: 0. UNVERIFIED, unsafe (log 3): decision D4 of the spec, no statement of the
source. -/
def gprReset : Byte := 0

/-- Default of the open parameter `SP_RESET`, the reset value of R7. PRESUMED, unsafe (log 2): the LS-8
value, from general knowledge. -/
def spResetDefault : Byte := 0xF4

/-- Reset value of `pc` ("starting at 0", rule R8). -/
def pcReset : Byte := 0

/-- Reset value of FL: 0. UNVERIFIED, unsafe (log 3): decision D5 of the spec, no statement of the source. -/
def flReset : Flag := 0

/-- Memory after reset: nothing listed, every cell 0 ("zero-initialized", rule R8). -/
def memReset : Memory := []

end Sys2Proof.Machine
end

