-- ==== Sys2Proof/Machine/State.lean ====
section
/-! DEFINITION. The architectural state, "the following and nothing else" (rule R20), as plain data; the
reasons a step of the model can stop; reset. -/

namespace Sys2Proof.Machine

/-- The two states of the engine's state machine (rule R29). -/
inductive RunState where
  | running
  | halted
  deriving DecidableEq, Repr

/-- The three exception causes (rule R200). -/
inductive Cause where
  | unrecognizedOpcode
  | outOfRangeAccess
  | unsupportedOperation
  deriving DecidableEq, Repr

/-- Which index went out of range (rule R30, field `kind`). -/
inductive AccessKind where
  | mem
  | reg
  | pc
  deriving DecidableEq, Repr

/-- The fault record (rule R30). -/
structure FaultRecord where
  /-- The cause; its number is `Cause.code`. -/
  cause  : Cause
  /-- The value of `pc` at the start of the faulting cycle. -/
  pc     : Byte
  /-- The opcode byte B0 of the faulting cycle; none for the fetch-window fault. -/
  opcode : Option Byte
  /-- For OutOfRangeAccess only. -/
  kind   : Option AccessKind
  /-- For OutOfRangeAccess only: the offending index, -1 to 256. -/
  index  : Option Int
  deriving DecidableEq, Repr

/-- The complete architectural state (rule R20): exactly its seven items. -/
structure State where
  /-- `M`: memory, code and data together (rule R33). -/
  mem   : Memory
  /-- `x`: the general registers R0 to R7; `x[7]` is the stack pointer (rules R21, R22). -/
  x     : Vector Byte 8
  /-- `pc`: the program counter (rule R24). -/
  pc    : Byte
  /-- `FL`: the flag register, the equality bit only (rule R27). -/
  fl    : Flag
  /-- `RUN` (rule R29). -/
  run   : RunState
  /-- `FAULT`: why the engine halted, when not by HLT (rule R30). -/
  fault : Option FaultRecord
  /-- `OUT`: every integer PRN has emitted, in order (rule R38). -/
  out   : List Nat
  deriving DecidableEq, Repr

/-- Model faults: THERE IS NONE. Nobody raises one, and that is safe: every exception of the spec is taken
as a next state with RUN = HALTED and the fault record written (rule R205), and every byte pattern has an
outcome (rules R112, R116), so no step of this machine stops outside the spec's own state machine (log 5). -/
inductive Fault where
  deriving DecidableEq, Repr

/-- Model refusals. -/
inductive Refusal where
  /-- Raised by an arm of `exec` whose instruction has no meaning yet. No arm raises it: all thirteen
  instructions have their meaning. Safe. -/
  | notModelled (mnemonic : String)
  deriving DecidableEq, Repr

/-- The state after reset with `SP_RESET` as an argument (rules R10, R45, R230). -/
def State.resetWith (spReset : Byte) : State where
  mem := memReset
  x := #v[gprReset, gprReset, gprReset, gprReset, gprReset, gprReset, gprReset, spReset]
  pc := pcReset
  fl := flReset
  run := .running
  fault := none
  out := []

/-- The state after reset (rule R45), with the default of `SP_RESET`. -/
def State.reset : State := State.resetWith spResetDefault

end Sys2Proof.Machine
end

