-- ==== Sys2Proof/Machine/Ops.lean ====
section
/-! DEFINITION. The named operations over registers, memory, the output stream and the run state, and
taking an exception. Every meaning is written over these. A meaning first makes its checks, each of which
may raise, and then its writes (rule R114), so a raise never has a write to discard (rule R13). -/

namespace Sys2Proof.Machine

/-- Read general register `k` (rule R13, `x[i]`). -/
def State.getReg (s : State) (k : RegIdx) : Byte := s.x[k.val]

/-- Write general register `k` (rule R13, `x[i] <- v`). No register is hardwired or read-only (rule R21). -/
def State.setReg (s : State) (k : RegIdx) (v : Byte) : State := { s with x := s.x.set k.val v }

/-- The index of the stack pointer (rules R8, R22: `SP_INDEX` = 7). -/
def spIndex : RegIdx := 7

/-- `SP`, shorthand for `x[7]` (rules R13, R22). -/
def State.sp (s : State) : Byte := s.getReg spIndex

/-- Write the stack pointer. -/
def State.setSp (s : State) (v : Byte) : State := s.setReg spIndex v

/-- Write the program counter. -/
def State.setPc (s : State) (v : Byte) : State := { s with pc := v }

/-- Write the flag register; only CMP does (rule R28). -/
def State.setFl (s : State) (f : Flag) : State := { s with fl := f }

/-- `MemRead(addr, 1)` with an address in range (rule R51). -/
def State.memRead (s : State) (addr : Byte) : Byte := s.mem.read addr.toNat

/-- `MemWrite(addr, 1, v)` with an address in range (rule R52). -/
def State.memWrite (s : State) (addr v : Byte) : State := { s with mem := s.mem.write addr.toNat v }

/-- `Emit(v)`: append the integer to OUT (rules R13, R38). -/
def State.emit (s : State) (v : Nat) : State := { s with out := s.out ++ [v] }

/-- `halt`: the clean transition RUNNING to HALTED, with no fault (rules R13, R190). -/
def State.halt (s : State) : State := { s with run := .halted }

/-- B0, the byte at address `pc` (rule R12): the opcode byte of the cycle that starts in `s`. -/
def State.b0 (s : State) : Byte := s.memRead s.pc

/-! ### Taking an exception -/

/-- What `raise <Cause>(info)` is given (rule R205). -/
structure Raise where
  cause  : Cause
  opcode : Option Byte
  kind   : Option AccessKind
  index  : Option Int
  deriving DecidableEq, Repr

/-- The number of a cause (rule R200). -/
def Cause.code : Cause → Nat
  | .unrecognizedOpcode => 1
  | .outOfRangeAccess => 2
  | .unsupportedOperation => 3

/-- `raise <Cause>(info)` in a cycle that starts in `s` (rule R205), the only trap entry of the machine:
FAULT is written, RUN becomes HALTED, and nothing else changes: `pc` keeps the address of the faulting
instruction's opcode, no register or memory cell receives the old `pc` or flags, and control goes to no
handler. There is no return from an exception (rule R207): the machine has no operation that undoes this
one but reset. -/
def State.raise (s : State) (r : Raise) : State :=
  { s with
    fault := some
      { cause := r.cause
        pc := s.pc
        opcode := r.opcode
        kind := r.kind
        index := r.index }
    run := .halted }

/-- OutOfRangeAccess raised by an instruction of the cycle that starts in `s`: the record's opcode is B0
(rules R30, R202). -/
def outOfRange (s : State) (kind : AccessKind) (index : Int) : Raise where
  cause := .outOfRangeAccess
  opcode := some s.b0
  kind := some kind
  index := some index

/-- The fetch-window fault (rule R111): no opcode was fetched. -/
def fetchWindowFault : Raise where
  cause := .outOfRangeAccess
  opcode := none
  kind := some .mem
  index := some 256

/-- UnrecognizedOpcode (rule R116) with its opcode byte. -/
def unrecognizedOpcode (b0 : Byte) : Raise where
  cause := .unrecognizedOpcode
  opcode := some b0
  kind := none
  index := none

/-- End of a cycle that started in `s`: the state its writes made, or, where a check raised, the state with
the exception taken and no write of the cycle (rule R205, precise exceptions). Either way it is a next
state. -/
def finish (s : State) (result : Except Raise State) : Host.Outcome State Fault Refusal :=
  match result with
  | .ok t => .next t
  | .error r => .next (s.raise r)

/-! ### Memory indices -/

/-- Rule R53: an address is computed as an exact integer and checked against 0 to 255, never reduced. -/
def memIndex (s : State) (addr : Int) : Except Raise Byte :=
  if 0 ≤ addr ∧ addr ≤ 255 then .ok (BitVec.ofNat 8 addr.toNat)
  else .error (outOfRange s .mem addr)

/-- The address a push stores to, the decremented stack pointer, which is also the stack pointer's new
value (rules R163, R165): raises with index -1 when `x[7]` = 0. -/
def pushAddress (s : State) : Except Raise Byte := memIndex s ((s.sp.toNat : Int) - 1)

/-- The stack pointer's value after a pop that increments `v` (rules R163, R165): raises with index 256
when `v` = 255. -/
def popIncrement (s : State) (v : Byte) : Except Raise Byte := memIndex s ((v.toNat : Int) + 1)

/-- Push, after its address check: decrement the stack pointer, then store (rule R165). The value is read
from the state AFTER the decrement (decision D15), so it is a function of that state. -/
def push (s : State) (addr : Byte) (value : State → Byte) : State :=
  let decremented := s.setSp addr
  decremented.memWrite addr (value decremented)

end Sys2Proof.Machine
end

