-- ==== Sys2Proof/Machine/Operands.lean ====
section
/-! DEFINITION. The operand forms and the default program-counter advance: the helper checks `reg(v)` and
`advance(n)` of rules R113 and R115. The machine has one other operand form, LDI's immediate byte, which is
used as it stands (rule R84). -/

namespace Sys2Proof.Machine

/-- `reg(v)`, rule R113: the whole operand byte must be 0 to 7 and is never masked (rule R83); otherwise
OutOfRangeAccess with `kind` = REG and `index` = the byte. -/
def reg (s : State) (v : Byte) : Except Raise RegIdx :=
  if h : v.toNat < 8 then .ok ⟨v.toNat, h⟩
  else .error (outOfRange s .reg v.toNat)

/-- The check of `advance(n)`, rule R115: `pc + n` as an exact integer; above 255 it raises
OutOfRangeAccess with `kind` = PC and `index` = the sum, and never wraps (rule R26). -/
def advance (s : State) (n : Nat) : Except Raise Byte :=
  if s.pc.toNat + n ≤ 255 then .ok (BitVec.ofNat 8 (s.pc.toNat + n))
  else .error (outOfRange s .pc ((s.pc.toNat + n : Nat) : Int))

end Sys2Proof.Machine
end

