-- ==== Sys2Proof/Machine/Alu.lean ====
section
/-! DEFINITION. The ALU (rules R140, R141, R148) and the cycle that ADD, MUL and CMP share. -/

namespace Sys2Proof.Machine

/-- The operation selector, a closed enumeration with exactly three values (rule R141), so that
UnsupportedOperation (rule R203) is unrepresentable (log 9). -/
inductive AluOp where
  | add
  | mul
  | cmp
  deriving DecidableEq, Repr

/-- The ALU's output: a new value for `x[a]` or a new FL, never both (rule R140). -/
inductive AluResult where
  | value (v : Byte)
  | flag (f : Flag)
  deriving DecidableEq, Repr

/-- The ALU, stateless (rule R140): ADD and MUL keep the low 8 bits of the exact result, with no carry, no
overflow and no high half (rule R148, decision D1). -/
def alu (op : AluOp) (a b : Byte) : AluResult :=
  match op with
  | .add => .value (BitVec.ofNat 8 (a.toNat + b.toNat))
  | .mul => .value (BitVec.ofNat 8 (a.toNat * b.toNat))
  | .cmp => .flag (equalFlag a b)

/-- Where the ALU's output goes: `x[a]` or FL (rule R140). -/
def writeAluResult (s : State) (a : RegIdx) : AluResult → State
  | .value v => s.setReg a v
  | .flag f => s.setFl f

/-- The cycle of the three ALU instructions (rules R142, R144, R146): check B1, then B2, then the advance by
3; both operands are read before the write. -/
def aluCycle (op : AluOp) (regA regB : Byte) (s : State) : Host.Outcome State Fault Refusal :=
  finish s do
    let a ← reg s regA
    let b ← reg s regB
    let next ← advance s 3
    return (writeAluResult s a (alu op (s.getReg a) (s.getReg b))).setPc next

end Sys2Proof.Machine
end

