-- ==== Sys2Proof/Machine/Arithmetic.lean ====
section
/-! DEFINITION. The meanings of ADD, MUL and CMP (42_alu.md). -/

namespace Sys2Proof.Machine

/-- ADD reg_a, reg_b: `x[a] <- (x[a] + x[b]) mod 256` (rule R142). -/
def execAdd (regA regB : Byte) (s : State) : Host.Outcome State Fault Refusal :=
  aluCycle .add regA regB s

/-- MUL reg_a, reg_b: `x[a] <- (x[a] * x[b]) mod 256` (rule R144). -/
def execMul (regA regB : Byte) (s : State) : Host.Outcome State Fault Refusal :=
  aluCycle .mul regA regB s

/-- CMP reg_a, reg_b: `FL <- 1 if x[a] == x[b] else 0` (rule R146). -/
def execCmp (regA regB : Byte) (s : State) : Host.Outcome State Fault Refusal :=
  aluCycle .cmp regA regB s

end Sys2Proof.Machine
end

