-- ==== Sys2Proof/Machine/Control.lean ====
section
/-! DEFINITION. The meanings of CALL, RET, JMP, JEQ and JNE (44_control.md). A target is an absolute byte
from a register or the stack, accepted whatever it is (rule R181). -/

namespace Sys2Proof.Machine

/-- CALL reg: push `pc + 2`, then `pc <- x[r]`, read after the push (rule R170). The return address is the
checked sum of rule R115; after the fetch it always fits a byte (log 6). -/
def execCall (regB1 : Byte) (s : State) : Host.Outcome State Fault Refusal :=
  finish s do
    let r ← reg s regB1
    let addr ← pushAddress s
    let returnAddress ← advance s 2
    let pushed := push s addr fun _ => returnAddress
    return pushed.setPc (pushed.getReg r)

/-- RET: pop into `pc` (rule R172). -/
def execRet (s : State) : Host.Outcome State Fault Refusal :=
  finish s do
    let sp' ← popIncrement s s.sp
    return (s.setSp sp').setPc (s.memRead s.sp)

/-- JMP reg: `pc <- x[r]` (rule R174). -/
def execJmp (regB1 : Byte) (s : State) : Host.Outcome State Fault Refusal :=
  finish s do
    let r ← reg s regB1
    return s.setPc (s.getReg r)

/-- The cycle of the two conditional jumps: the operand is checked, taken or not (rule R113). -/
def branchCycle (taken : Bool) (regB1 : Byte) (s : State) : Host.Outcome State Fault Refusal :=
  finish s do
    let r ← reg s regB1
    if taken then return s.setPc (s.getReg r)
    else
      let next ← advance s 2
      return s.setPc next

/-- JEQ reg: `pc <- x[r]` if FL = 1, else `pc <- pc + 2` (rule R176). -/
def execJeq (regB1 : Byte) (s : State) : Host.Outcome State Fault Refusal :=
  branchCycle (takenIfEqual s.fl) regB1 s

/-- JNE reg: `pc <- x[r]` if FL = 0, else `pc <- pc + 2` (rule R178). -/
def execJne (regB1 : Byte) (s : State) : Host.Outcome State Fault Refusal :=
  branchCycle (takenIfNotEqual s.fl) regB1 s

end Sys2Proof.Machine
end

