-- ==== Sys2Proof/Machine/Halt.lean ====
section
/-! DEFINITION. The meaning of HLT (45_halt.md). -/

namespace Sys2Proof.Machine

/-- HLT: `RUN <- HALTED`, FAULT stays none, `pc` keeps the address of the HLT opcode (rule R190). -/
def execHlt (s : State) : Host.Outcome State Fault Refusal := finish s (.ok s.halt)

end Sys2Proof.Machine
end

