-- ==== Sys2Proof/Machine/LoadPrint.lean ====
section
/-! DEFINITION. The meanings of LDI and PRN (41_ldi_prn.md). -/

namespace Sys2Proof.Machine

/-- LDI reg, immediate: `x[r] <- B2` (rule R130). -/
def execLdi (regB1 imm : Byte) (s : State) : Host.Outcome State Fault Refusal :=
  finish s do
    let r ← reg s regB1
    let next ← advance s 3
    return (s.setReg r imm).setPc next

/-- PRN reg: `Emit(x[r])` (rule R132). -/
def execPrn (regB1 : Byte) (s : State) : Host.Outcome State Fault Refusal :=
  finish s do
    let r ← reg s regB1
    let next ← advance s 2
    return (s.emit (s.getReg r).toNat).setPc next

end Sys2Proof.Machine
end

