-- ==== Sys2Proof/Machine/Stack.lean ====
section
/-! DEFINITION. The meanings of PUSH and POP (43_stack.md). -/

namespace Sys2Proof.Machine

/-- PUSH reg: decrement SP, then store `x[r]`, read after the decrement (rule R160). -/
def execPush (regB1 : Byte) (s : State) : Host.Outcome State Fault Refusal :=
  finish s do
    let r ← reg s regB1
    let addr ← pushAddress s
    let next ← advance s 2
    return (push s addr fun t => t.getReg r).setPc next

/-- POP reg: load `x[r]` from the stack top, then increment SP, which for `r` = 7 is the loaded byte
(rule R162). -/
def execPop (regB1 : Byte) (s : State) : Host.Outcome State Fault Refusal :=
  finish s do
    let r ← reg s regB1
    let v := s.memRead s.sp
    let loaded := s.setReg r v
    let sp' ← popIncrement s loaded.sp
    let next ← advance s 2
    return (loaded.setSp sp').setPc next

end Sys2Proof.Machine
end

