-- ==== Sys2Proof/Syntax.lean ====
section
/-! DEFINITION. The thirteen instructions (rules R80, R81), one constructor per row of
spec/opcode_table.json. -/

namespace Sys2Proof

/-- An instruction with the operand bytes its format declares (rule R80). A register operand is held as
the WHOLE operand byte: rule R83 gives bytes 8 to 255 a meaning, the exception OutOfRangeAccess raised by
the instruction itself, so they are part of the syntax; `Instr.wf` says which bytes name a register. -/
inductive Instr where
  /-- LDI reg, immediate: B1 = `reg`, B2 = `imm` (rule R130). -/
  | ldi (reg imm : Byte)
  /-- PRN reg: B1 = `reg` (rule R132). -/
  | prn (reg : Byte)
  /-- ADD reg_a, reg_b: B1 = `reg_a`, B2 = `reg_b` (rule R142). -/
  | add (regA regB : Byte)
  /-- MUL reg_a, reg_b: B1 = `reg_a`, B2 = `reg_b` (rule R144). -/
  | mul (regA regB : Byte)
  /-- CMP reg_a, reg_b: B1 = `reg_a`, B2 = `reg_b` (rule R146). -/
  | cmp (regA regB : Byte)
  /-- PUSH reg: B1 = `reg` (rule R160). -/
  | push (reg : Byte)
  /-- POP reg: B1 = `reg` (rule R162). -/
  | pop (reg : Byte)
  /-- CALL reg: B1 = `reg`, which holds the target address (rule R170). -/
  | call (reg : Byte)
  /-- RET (rule R172). -/
  | ret
  /-- JMP reg: B1 = `reg`, which holds the target address (rule R174). -/
  | jmp (reg : Byte)
  /-- JEQ reg: B1 = `reg`, which holds the target address (rule R176). -/
  | jeq (reg : Byte)
  /-- JNE reg: B1 = `reg`, which holds the target address (rule R178). -/
  | jne (reg : Byte)
  /-- HLT (rule R190). -/
  | hlt
  deriving DecidableEq, Repr

end Sys2Proof
end

