-- ==== Sys2Proof/Config.lean ====
section
/-! DEFINITION. What an implementation fixes: the open parameter `OPC` of rule R10 is a map from the
thirteen mnemonics to opcode bytes. Its default table stands in Decode.lean, the default of `SP_RESET` in
Machine/ResetValues.lean, and `EXIT_FAIL` is an argument of `Machine.exitCode`. The parameters the source
fixes (rule R8) are in the types of Word.lean and in the checks that cite that rule. -/

namespace Sys2Proof

/-- The thirteen mnemonics of the dispatch table (rules R2, R81). -/
inductive Mnemonic where
  | ldi | prn | add | mul | cmp | push | pop | call | ret | jmp | jeq | jne | hlt
  deriving DecidableEq, Repr

/-- The mnemonics in the order of the dispatch table (rule R81). -/
def Mnemonic.all : List Mnemonic :=
  [.ldi, .prn, .add, .mul, .cmp, .push, .pop, .call, .ret, .jmp, .jeq, .jne, .hlt]

/-- The open parameter `OPC` of rule R10: which opcode byte selects which instruction. -/
abbrev OpcodeMap := Mnemonic → Byte

/-- Rules R10 and R91: `OPC` must be injective, thirteen distinct bytes. -/
def OpcodeMap.Injective (opc : OpcodeMap) : Prop :=
  ∀ m m' : Mnemonic, opc m = opc m' → m = m'

end Sys2Proof
end

