-- ==== Sys2Proof/WellFormed.lean ====
section
/-! DEFINITION. Which instructions are well formed: every byte that a format declares as a register
operand names a register (rules R83, R93). -/

namespace Sys2Proof

/-- Rule R83: an operand byte names a register when it is 0 to 7. -/
def isRegOperand (v : Byte) : Bool := v.toNat ≤ 7

/-- The operand bytes that the instruction's format declares as registers, B1 before B2 (rule R80).
LDI's immediate is none of them (rule R84). -/
def Instr.regOperands : Instr → List Byte
  | .ldi r _ => [r]
  | .prn r => [r]
  | .add a b => [a, b]
  | .mul a b => [a, b]
  | .cmp a b => [a, b]
  | .push r => [r]
  | .pop r => [r]
  | .call r => [r]
  | .ret => []
  | .jmp r => [r]
  | .jeq r => [r]
  | .jne r => [r]
  | .hlt => []

/-- Rule R93: the only illegal field values are register operand bytes 8 to 255. -/
def Instr.wf (i : Instr) : Bool := i.regOperands.all isRegOperand

end Sys2Proof
end

