-- ==== Sys2Proof/Decode.lean ====
section
/-! DEFINITION. The decoder, total on any bytes and rejecting by name, and after it the encoder
(30_encoding.md). Both take the open parameter `OPC` as an argument. -/

namespace Sys2Proof

/-- The default of the parameter `OPC` (rule R90). PRESUMED, unsafe (log 1): the bytes are the LS-8
teaching ISA's, from general knowledge; the source prints no numeric opcode. -/
def defaultOpc : OpcodeMap
  | .ldi => 0x82
  | .prn => 0x47
  | .add => 0xA0
  | .mul => 0xA2
  | .cmp => 0xA7
  | .push => 0x45
  | .pop => 0x46
  | .call => 0x50
  | .ret => 0x11
  | .jmp => 0x54
  | .jeq => 0x55
  | .jne => 0x56
  | .hlt => 0x01

/-- Why the decoder refuses bytes. `unrecognizedOpcode` is rule R92; `noBytes` and `truncated` can only
come from a byte list shorter than the fetch window, which the engine never decodes (rule R111). -/
inductive DecodeError where
  | noBytes
  | truncated (m : Mnemonic)
  | unrecognizedOpcode (b : Byte)
  deriving DecidableEq, Repr

/-- Rule R91: the whole byte B0 is compared for equality with the thirteen values `OPC(m)`. -/
def recognise (opc : OpcodeMap) (b0 : Byte) : Option Mnemonic :=
  Mnemonic.all.find? fun m => opc m == b0

/-- How many operand bytes the mnemonic's format declares (rule R80). -/
def Mnemonic.operandCount : Mnemonic → Nat
  | .ldi => 2
  | .prn => 1
  | .add => 2
  | .mul => 2
  | .cmp => 2
  | .push => 1
  | .pop => 1
  | .call => 1
  | .ret => 0
  | .jmp => 1
  | .jeq => 1
  | .jne => 1
  | .hlt => 0

/-- The instruction that a mnemonic makes of the operand bytes B1 and B2; a byte its format does not
declare is ignored (rules R80, R85). -/
def instrOf (m : Mnemonic) (b1 b2 : Byte) : Instr :=
  match m with
  | .ldi => .ldi b1 b2
  | .prn => .prn b1
  | .add => .add b1 b2
  | .mul => .mul b1 b2
  | .cmp => .cmp b1 b2
  | .push => .push b1
  | .pop => .pop b1
  | .call => .call b1
  | .ret => .ret
  | .jmp => .jmp b1
  | .jeq => .jeq b1
  | .jne => .jne b1
  | .hlt => .hlt

/-- The decoder on a fetch window B0, B1, B2 (rule R112). -/
def decodeWindow (opc : OpcodeMap) (b0 b1 b2 : Byte) : Except DecodeError Instr :=
  match recognise opc b0 with
  | some m => .ok (instrOf m b1 b2)
  | none => .error (.unrecognizedOpcode b0)

/-- The decoder on a byte list, lowest address first: the instruction and the bytes after it. The opcode
byte alone tells the length (rule R82). -/
def decode (opc : OpcodeMap) : List Byte → Except DecodeError (Instr × List Byte)
  | [] => .error .noBytes
  | b0 :: operands =>
    match recognise opc b0 with
    | none => .error (.unrecognizedOpcode b0)
    | some m =>
      if operands.length < m.operandCount then .error (.truncated m)
      else .ok (instrOf m (operands.getD 0 0) (operands.getD 1 0), operands.drop m.operandCount)

/-- The bytes B0, B1, B2 of the number `w` of `nbits` bits, the first byte least significant; every bit
above `nbits` is 0. -/
def tableByte (nbits w k : Nat) : Byte := BitVec.ofNat 8 (w % 2 ^ nbits / 2 ^ (8 * k))

/-- The instruction the decoder reads, with the default opcode map, from an instruction whose bits are
`w` as spec/opcode_table.json numbers them (bit 0 the least significant bit of B0). -/
def decodeTableWord (nbits w : Nat) : Option Instr :=
  match decodeWindow defaultOpc (tableByte nbits w 0) (tableByte nbits w 1) (tableByte nbits w 2) with
  | .ok i => some i
  | .error _ => none

/-- The mnemonic of an instruction (rule R81). -/
def Instr.mnemonic : Instr → Mnemonic
  | .ldi _ _ => .ldi
  | .prn _ => .prn
  | .add _ _ => .add
  | .mul _ _ => .mul
  | .cmp _ _ => .cmp
  | .push _ => .push
  | .pop _ => .pop
  | .call _ => .call
  | .ret => .ret
  | .jmp _ => .jmp
  | .jeq _ => .jeq
  | .jne _ => .jne
  | .hlt => .hlt

/-- Length of the encoding in bytes, the opcode byte and the declared operand bytes (rule R81). -/
def Instr.length (i : Instr) : Nat := 1 + i.mnemonic.operandCount

/-- The encoder: the bytes of an instruction, lowest address first, from the format tables of rule R80. -/
def encode (opc : OpcodeMap) : Instr → List Byte
  | .ldi r v => [opc .ldi, r, v]
  | .prn r => [opc .prn, r]
  | .add a b => [opc .add, a, b]
  | .mul a b => [opc .mul, a, b]
  | .cmp a b => [opc .cmp, a, b]
  | .push r => [opc .push, r]
  | .pop r => [opc .pop, r]
  | .call r => [opc .call, r]
  | .ret => [opc .ret]
  | .jmp r => [opc .jmp, r]
  | .jeq r => [opc .jeq, r]
  | .jne r => [opc .jne, r]
  | .hlt => [opc .hlt]

end Sys2Proof
end

