-- ==== Sys2Proof/Machine/Fetch.lean ====
section
/-! DEFINITION. The fetch (rule R111), the unrecognised-opcode path (rule R116), and placing an instruction
where the next fetch reads it. -/

namespace Sys2Proof.Machine

/-- The fetch window B0, B1, B2 (rule R12). -/
structure Window where
  b0 : Byte
  b1 : Byte
  b2 : Byte
  deriving DecidableEq, Repr

/-- Rule R111: the three bytes at `pc`, `pc + 1`, `pc + 2`, read whatever the opcode is; a window that
leaves memory raises before any byte is read. -/
def fetch (s : State) : Except Raise Window :=
  if 253 < s.pc.toNat then .error fetchWindowFault
  else .ok
    { b0 := s.mem.read s.pc.toNat
      b1 := s.mem.read (s.pc.toNat + 1)
      b2 := s.mem.read (s.pc.toNat + 2) }

/-- What a cycle does when the window decodes to no instruction (rule R116): UnrecognizedOpcode with B0. -/
def execUnrecognized (w : Window) (s : State) : Host.Outcome State Fault Refusal :=
  finish s (.error (unrecognizedOpcode w.b0))

/-- What a step does when RUN = HALTED: no cycle is performed and the state is unchanged (rules R29, R110).
DESIGN CHOICE, safe (log 4): the model answers the same state. -/
def haltedStep (s : State) : Host.Outcome State Fault Refusal := .next s

/-- Three bytes stored at addresses `pc`, `pc + 1`, `pc + 2`, which must be at most 255. -/
def State.placeWindow (s : State) (w : Window) : State :=
  { s with
    mem := ((s.mem.write s.pc.toNat w.b0).write (s.pc.toNat + 1) w.b1).write (s.pc.toNat + 2) w.b2 }

/-- The state made ready to fetch: RUN = RUNNING, and `pc` where a window fits (kept when it is at most 253,
else the reset value). -/
def State.readyToFetch (s : State) : State :=
  { s with
    run := .running
    pc := if 253 < s.pc.toNat then pcReset else s.pc }

end Sys2Proof.Machine
end

