-- ==== Sys2Proof/Machine/Step.lean ====
section
/-! DEFINITION. One step of the machine: one whole instruction cycle (rules R7, R110). -/

namespace Sys2Proof.Machine

/-- One step with the opcode map `opc` (rule R10): while RUNNING, fetch, dispatch and execute (rules R110 to
R116); when HALTED, nothing (rule R29). -/
def stepWith (opc : OpcodeMap) (s : State) : Host.Outcome State Fault Refusal :=
  match s.run with
  | .halted => haltedStep s
  | .running =>
    match fetch s with
    | .error r => finish s (.error r)
    | .ok w =>
      match decodeWindow opc w.b0 w.b1 w.b2 with
      | .ok i => exec i s
      | .error _ => execUnrecognized w s

/-- One step with the default opcode map (rule R90, log 1). -/
def step (s : State) : Host.Outcome State Fault Refusal := stepWith defaultOpc s

/-- `s` with the instruction whose bits are `w` (numbered as spec/opcode_table.json numbers them) stored
where `step` fetches next, so that the very next step runs it (log 7). -/
def State.withFetchWord (s : State) (nbits w : Nat) : State :=
  s.readyToFetch.placeWindow
    { b0 := tableByte nbits w 0
      b1 := tableByte nbits w 1
      b2 := tableByte nbits w 2 }

end Sys2Proof.Machine
end

