-- ==== Sys2Proof/Machine/Launch.lean ====
section
/-! DEFINITION. The loader's interface (rules R37, R231): the launch state of a program image. The load is
not a sequence of steps. -/

namespace Sys2Proof.Machine

/-- The reset state with the image written into memory from address 0, in order; an image longer than 256
bytes is refused before execution and no run exists for it (rules R37, R231). -/
def launchWith (spReset : Byte) (image : List Byte) : Option State :=
  if image.length ≤ 256 then
    some { State.resetWith spReset with mem := Memory.loadFrom memReset 0 image }
  else none

/-- The launch state with the default of `SP_RESET`. -/
def launch (image : List Byte) : Option State := launchWith spResetDefault image

end Sys2Proof.Machine
end

