-- ==== Sys2Proof/Machine/Status.lean ====
section
/-! DEFINITION. The status interface from the core to the host (rules R39, R206, R233). -/

namespace Sys2Proof.Machine

/-- What a host wrapper reports once a run has ended (rule R39). -/
inductive ExitStatus where
  | success
  | failure
  deriving DecidableEq, Repr

/-- Rule R39: none while RUNNING; success if and only if RUN = HALTED and FAULT = none; failure if RUN =
HALTED and FAULT is a record, whatever its cause. -/
def State.exitStatus (s : State) : Option ExitStatus :=
  match s.run with
  | .running => none
  | .halted =>
    match s.fault with
    | none => some .success
    | some _ => some .failure

/-- The process exit code a host wrapper reports: 0 for success, the open parameter `EXIT_FAIL` for a failure
(rules R10, R39; log 12: that success is 0 is PRESUMED). -/
def exitCode (exitFail : Int) (s : State) : Option Int :=
  s.exitStatus.map fun
    | .success => 0
    | .failure => exitFail

end Sys2Proof.Machine
end

