-- ==== Sys2Proof/Safety.lean ====
section
/-! DEFINITION. What counts as a safe run, in the terms claims use: the state's invariant, and the sites at
which the spec lets an exception be raised. -/

namespace Sys2Proof.Machine

/-- A fault record that the machine can hold in state `s` (rules R30, R202): `pc` is where the engine stopped,
the opcode is the byte there, and `kind` and `index` go with the cause. Cause 3 is never recorded (rule R203). -/
def FaultRecord.Legal (s : State) (f : FaultRecord) : Prop :=
  f.pc = s.pc ∧
    ((f.cause = .unrecognizedOpcode ∧ f.opcode = some s.b0 ∧ f.kind = none ∧ f.index = none) ∨
     (f.cause = .outOfRangeAccess ∧ f.opcode = none ∧ f.kind = some .mem ∧ f.index = some 256 ∧
        253 < s.pc.toNat) ∨
     (f.cause = .outOfRangeAccess ∧ f.opcode = some s.b0 ∧ s.pc.toNat ≤ 253 ∧
        ((f.kind = some .mem ∧ (f.index = some (-1) ∨ f.index = some 256)) ∨
         (f.kind = some .reg ∧ ∃ v : Nat, 8 ≤ v ∧ v ≤ 255 ∧ f.index = some (v : Int)) ∨
         (f.kind = some .pc ∧ f.index = some 256))))

/-- The invariant of the machine's state. -/
structure State.Inv (s : State) : Prop where
  /-- Memory is in its canonical form: 256 byte cells, equal memories equal data. -/
  memWf : s.mem.wf = true
  /-- FAULT is none while RUN = RUNNING (rule R30). -/
  runningClean : s.run = .running → s.fault = none
  /-- Every emitted integer is the unsigned value 0 to 255 of a register (rule R38). -/
  outBytes : ∀ v ∈ s.out, v ≤ 255
  /-- A fault record is one the spec allows, and `pc` still holds its address (rules R30, R205). -/
  faultLegal : ∀ f, s.fault = some f → f.Legal s

/-- The rows of the table of rule R202 and the row of rule R201: in the cycle that starts in `s`, the site's
condition holds and the record is the one the row gives. -/
inductive FaultSite (opc : OpcodeMap) (s : State) : FaultRecord → Prop where
  /-- Fetch, any cycle, `pc` = 254 or 255. -/
  | fetchWindow (h : 253 < s.pc.toNat) :
      FaultSite opc s ⟨.outOfRangeAccess, s.pc, none, some .mem, some 256⟩
  /-- Dispatch: B0 is no `OPC(m)`. -/
  | opcode (h : s.pc.toNat ≤ 253) (hm : ∀ m, opc m ≠ s.b0) :
      FaultSite opc s ⟨.unrecognizedOpcode, s.pc, some s.b0, none, none⟩
  /-- A declared register operand byte above 7. -/
  | register (h : s.pc.toNat ≤ 253) (i : Instr)
      (hi : decodeWindow opc s.b0 (s.mem.read (s.pc.toNat + 1)) (s.mem.read (s.pc.toNat + 2)) = .ok i)
      (v : Byte) (hv : v ∈ i.regOperands) (h7 : 7 < v.toNat) :
      FaultSite opc s ⟨.outOfRangeAccess, s.pc, some s.b0, some .reg, some (v.toNat : Int)⟩
  /-- PUSH or CALL with `x[7]` = 0. -/
  | pushAtZero (h : s.pc.toNat ≤ 253) (hi : s.b0 = opc .push ∨ s.b0 = opc .call) (h0 : s.sp = 0) :
      FaultSite opc s ⟨.outOfRangeAccess, s.pc, some s.b0, some .mem, some (-1)⟩
  /-- POP to a register other than R7, or RET, with `x[7]` = 255. -/
  | popAtTop (h : s.pc.toNat ≤ 253)
      (hi : (s.b0 = opc .pop ∧ s.mem.read (s.pc.toNat + 1) ≠ 7) ∨ s.b0 = opc .ret) (h0 : s.sp = 255) :
      FaultSite opc s ⟨.outOfRangeAccess, s.pc, some s.b0, some .mem, some 256⟩
  /-- POP R7 whose loaded byte is 255. -/
  | popLoadedTop (h : s.pc.toNat ≤ 253) (hi : s.b0 = opc .pop) (hr : s.mem.read (s.pc.toNat + 1) = 7)
      (h0 : s.memRead s.sp = 255) :
      FaultSite opc s ⟨.outOfRangeAccess, s.pc, some s.b0, some .mem, some 256⟩
  /-- LDI, ADD, MUL or CMP at `pc` = 253. -/
  | advance (h : s.pc = 253)
      (hi : s.b0 = opc .ldi ∨ s.b0 = opc .add ∨ s.b0 = opc .mul ∨ s.b0 = opc .cmp) :
      FaultSite opc s ⟨.outOfRangeAccess, s.pc, some s.b0, some .pc, some 256⟩

/-- The stack-pointer check of rule R114 (5): the offending index of rule R163, if it fails. -/
def stackFaultIndex (s : State) : Instr → Option Int
  | .push _ => if s.sp = 0 then some (-1) else none
  | .call _ => if s.sp = 0 then some (-1) else none
  | .pop r => if (if r = 7 then s.memRead s.sp else s.sp) = 255 then some 256 else none
  | .ret => if s.sp = 255 then some 256 else none
  | .ldi _ _ => none
  | .prn _ => none
  | .add _ _ => none
  | .mul _ _ => none
  | .cmp _ _ => none
  | .jmp _ => none
  | .jeq _ => none
  | .jne _ => none
  | .hlt => none

/-- The sequential-advance check of rule R114 (6): it can fail only for a 3-byte instruction at `pc` = 253. -/
def advanceFaultIndex (s : State) (i : Instr) : Option Int :=
  if i.length = 3 ∧ s.pc = 253 then some 256 else none

/-- The record of the FIRST failing check of the cycle that starts in `s`, in the order of rule R114: fetch
window, opcode, register operands B1 then B2, stack pointer, advance; none when no check fails. -/
def firstFault (opc : OpcodeMap) (s : State) : Option FaultRecord :=
  if 253 < s.pc.toNat then some ⟨.outOfRangeAccess, s.pc, none, some .mem, some 256⟩
  else
    match decodeWindow opc s.b0 (s.mem.read (s.pc.toNat + 1)) (s.mem.read (s.pc.toNat + 2)) with
    | .error _ => some ⟨.unrecognizedOpcode, s.pc, some s.b0, none, none⟩
    | .ok i =>
      match i.regOperands.find? fun v => decide (7 < v.toNat) with
      | some v => some ⟨.outOfRangeAccess, s.pc, some s.b0, some .reg, some (v.toNat : Int)⟩
      | none =>
        match stackFaultIndex s i with
        | some index => some ⟨.outOfRangeAccess, s.pc, some s.b0, some .mem, some index⟩
        | none =>
          (advanceFaultIndex s i).map fun index =>
            ⟨.outOfRangeAccess, s.pc, some s.b0, some .pc, some index⟩

/-- The state after an OutOfRangeAccess raised by the instruction of the cycle that starts in `s`, written
out: the record of rule R30, RUN = HALTED, and nothing else changed (rule R205). -/
def State.accessFaulted (s : State) (kind : AccessKind) (index : Int) : State :=
  { s with
    run := .halted
    fault := some
      { cause := .outOfRangeAccess
        pc := s.pc
        opcode := some (s.mem.read s.pc.toNat)
        kind := some kind
        index := some index } }

/-- `t` is `s` with an exception taken and nothing else changed (rule R205, precise exceptions). -/
def FaultedFrom (s t : State) : Prop := ∃ f : FaultRecord, t = { s with run := .halted, fault := some f }

/-- The column "registers written" of rule R23. -/
def writesReg (k : RegIdx) : Instr → Bool
  | .ldi r _ => k.val == r.toNat
  | .prn _ => false
  | .add a _ => k.val == a.toNat
  | .mul a _ => k.val == a.toNat
  | .cmp _ _ => false
  | .push _ => k == 7
  | .pop r => k.val == r.toNat || k == 7
  | .call _ => k == 7
  | .ret => k == 7
  | .jmp _ => false
  | .jeq _ => false
  | .jne _ => false
  | .hlt => false

/-- The column "registers read" of rule R23; JEQ and JNE read their register only when they are taken. -/
def readsReg (fl : Flag) (k : RegIdx) : Instr → Bool
  | .ldi _ _ => false
  | .prn r => k.val == r.toNat
  | .add a b => k.val == a.toNat || k.val == b.toNat
  | .mul a b => k.val == a.toNat || k.val == b.toNat
  | .cmp a b => k.val == a.toNat || k.val == b.toNat
  | .push r => k == 7 || k.val == r.toNat
  | .pop _ => k == 7
  | .call r => k == 7 || k.val == r.toNat
  | .ret => k == 7
  | .jmp r => k.val == r.toNat
  | .jeq r => fl == 1 && k.val == r.toNat
  | .jne r => fl == 0 && k.val == r.toNat
  | .hlt => false

/-- A safe state of a run: no exception has been taken. -/
def State.safe (s : State) : Bool := s.fault.isNone

/-- Rule R233: the run has ended. -/
def State.ended (s : State) : Bool := s.run == .halted

/-- Rule R233: the run ended cleanly, by HLT. -/
def State.endedCleanly (s : State) : Bool := s.ended && s.safe

end Sys2Proof.Machine
end

