-- ==== Sys2Proof/Certificates/Slice0/Obligations.lean ====
section
/-! DEFINITION. The statements for the provers, from the spec's numbered rules. A statement over `stepWith opc`
holds for every value of the open parameter `OPC`; `step` is its instance at the default map (log 1). -/

open Sys2Proof
open Sys2Proof.Machine

/-! ### Reset and launch -/

/-- Rule R45, for every value of the open parameter `SP_RESET`, and that `reset` takes its default. The values
of R0 to R6 and FL are the spec's decisions D4 and D5 (log 3); the default 0xF4 is PRESUMED (log 2). -/
def Obligations.ResetPutsEveryItemAtItsValue : Prop :=
  (∀ spReset : Byte, ∀ s, s = State.resetWith spReset →
    (∀ a, s.mem.read a = 0) ∧ s.pc = 0 ∧ s.run = .running ∧ (∀ k : RegIdx, k ≠ 7 → s.getReg k = 0) ∧
    s.getReg 7 = spReset ∧ s.fl = 0 ∧ s.fault = none ∧ s.out = []) ∧
  State.reset = State.resetWith 0xF4

/-- Rule R231: the launch state, and the refusal of an image longer than 256 bytes. -/
def Obligations.LaunchIsResetWithTheImageFromAddressZero : Prop :=
  ∀ (spReset : Byte) (image : List Byte),
    (image.length ≤ 256 → ∃ s, launchWith spReset image = some s ∧
      (∀ a, a < 256 → s.mem.read a = image.getD a 0) ∧
      s = { State.resetWith spReset with mem := s.mem }) ∧
    (256 < image.length → launchWith spReset image = none)

/-! ### The instructions: encoding, effect, exceptions -/

/-- Rule R130, for every operand byte: what a cycle of LDI does, and that its bytes decode to it. The rule's
advance check is the spec's decision D7 (log 10). -/
def Obligations.LdiLoadsTheImmediate : Prop :=
  ∀ (r v : Byte) (s : State),
    (7 < r.toNat → exec (.ldi r v) s = .next (s.accessFaulted .reg r.toNat)) ∧
    (r.toNat < 8 → s.pc = 253 → exec (.ldi r v) s = .next (s.accessFaulted .pc 256)) ∧
    (∀ h : r.toNat < 8, s.pc.toNat ≤ 252 →
      exec (.ldi r v) s = .next { s with x := s.x.set r.toNat v h, pc := s.pc + 3 }) ∧
    (∀ opc : OpcodeMap, opc.Injective → decodeWindow opc (opc .ldi) r v = .ok (.ldi r v))

/-- Rule R132, for every operand byte. -/
def Obligations.PrnEmitsTheRegister : Prop :=
  ∀ (r : Byte) (s : State),
    (7 < r.toNat → exec (.prn r) s = .next (s.accessFaulted .reg r.toNat)) ∧
    (∀ h : r.toNat < 8, s.pc.toNat ≤ 253 →
      exec (.prn r) s = .next { s with out := s.out ++ [(s.x[r.toNat]'h).toNat], pc := s.pc + 2 }) ∧
    (∀ (opc : OpcodeMap) (b2 : Byte), opc.Injective → decodeWindow opc (opc .prn) r b2 = .ok (.prn r))

/-- Rule R142, for every pair of operand bytes. The rule's modulo 256 and advance check are the spec's
decisions D1 and D7 (log 10). -/
def Obligations.AddKeepsTheLowByteOfTheSum : Prop :=
  ∀ (a b : Byte) (s : State),
    (7 < a.toNat → exec (.add a b) s = .next (s.accessFaulted .reg a.toNat)) ∧
    (a.toNat < 8 → 7 < b.toNat → exec (.add a b) s = .next (s.accessFaulted .reg b.toNat)) ∧
    (a.toNat < 8 → b.toNat < 8 → s.pc = 253 → exec (.add a b) s = .next (s.accessFaulted .pc 256)) ∧
    (∀ (ha : a.toNat < 8) (hb : b.toNat < 8), s.pc.toNat ≤ 252 →
      exec (.add a b) s = .next { s with
        x := s.x.set a.toNat
          (BitVec.ofNat 8 (((s.x[a.toNat]'ha).toNat + (s.x[b.toNat]'hb).toNat) % 256)) ha
        pc := s.pc + 3 }) ∧
    (∀ opc : OpcodeMap, opc.Injective → decodeWindow opc (opc .add) a b = .ok (.add a b))

/-- Rule R144, for every pair of operand bytes. The rule's modulo 256 and advance check are the spec's
decisions D1 and D7 (log 10). -/
def Obligations.MulKeepsTheLowByteOfTheProduct : Prop :=
  ∀ (a b : Byte) (s : State),
    (7 < a.toNat → exec (.mul a b) s = .next (s.accessFaulted .reg a.toNat)) ∧
    (a.toNat < 8 → 7 < b.toNat → exec (.mul a b) s = .next (s.accessFaulted .reg b.toNat)) ∧
    (a.toNat < 8 → b.toNat < 8 → s.pc = 253 → exec (.mul a b) s = .next (s.accessFaulted .pc 256)) ∧
    (∀ (ha : a.toNat < 8) (hb : b.toNat < 8), s.pc.toNat ≤ 252 →
      exec (.mul a b) s = .next { s with
        x := s.x.set a.toNat
          (BitVec.ofNat 8 (((s.x[a.toNat]'ha).toNat * (s.x[b.toNat]'hb).toNat) % 256)) ha
        pc := s.pc + 3 }) ∧
    (∀ opc : OpcodeMap, opc.Injective → decodeWindow opc (opc .mul) a b = .ok (.mul a b))

/-- Rule R146, for every pair of operand bytes. The rule's advance check is the spec's decision D7 (log 10). -/
def Obligations.CmpWritesTheEqualityFlag : Prop :=
  ∀ (a b : Byte) (s : State),
    (7 < a.toNat → exec (.cmp a b) s = .next (s.accessFaulted .reg a.toNat)) ∧
    (a.toNat < 8 → 7 < b.toNat → exec (.cmp a b) s = .next (s.accessFaulted .reg b.toNat)) ∧
    (a.toNat < 8 → b.toNat < 8 → s.pc = 253 → exec (.cmp a b) s = .next (s.accessFaulted .pc 256)) ∧
    (∀ (ha : a.toNat < 8) (hb : b.toNat < 8), s.pc.toNat ≤ 252 →
      exec (.cmp a b) s = .next { s with
        fl := if s.x[a.toNat]'ha = s.x[b.toNat]'hb then 1 else 0
        pc := s.pc + 3 }) ∧
    (∀ opc : OpcodeMap, opc.Injective → decodeWindow opc (opc .cmp) a b = .ok (.cmp a b))

/-- Rule R160, for every operand byte: the stored value is read after the decrement. The rule's check of R7
and its order of reads are the spec's decisions D9 and D15 (log 10). -/
def Obligations.PushDecrementsThenStores : Prop :=
  ∀ (r : Byte) (s : State),
    (7 < r.toNat → exec (.push r) s = .next (s.accessFaulted .reg r.toNat)) ∧
    (r.toNat < 8 → s.x[7] = 0 → exec (.push r) s = .next (s.accessFaulted .mem (-1))) ∧
    (∀ h : r.toNat < 8, s.x[7] ≠ 0 → s.pc.toNat ≤ 253 →
      exec (.push r) s = .next { s with
        x := s.x.set 7 (s.x[7] - 1)
        mem := s.mem.write (s.x[7].toNat - 1) ((s.x.set 7 (s.x[7] - 1))[r.toNat]'h)
        pc := s.pc + 2 }) ∧
    (∀ (opc : OpcodeMap) (b2 : Byte), opc.Injective → decodeWindow opc (opc .push) r b2 = .ok (.push r))

/-- Rule R162, for every operand byte: POP R7 increments the loaded byte. The rule's check of the value to be
incremented and its order of writes are the spec's decisions D9 and D15 (log 10). -/
def Obligations.PopLoadsThenIncrements : Prop :=
  ∀ (r : Byte) (s : State),
    (7 < r.toNat → exec (.pop r) s = .next (s.accessFaulted .reg r.toNat)) ∧
    (r.toNat < 7 → s.x[7] = 255 → exec (.pop r) s = .next (s.accessFaulted .mem 256)) ∧
    (∀ h : r.toNat < 7, s.x[7] ≠ 255 → s.pc.toNat ≤ 253 →
      exec (.pop r) s = .next { s with
        x := (s.x.set r.toNat (s.mem.read s.x[7].toNat) (Nat.lt_succ_of_lt h)).set 7 (s.x[7] + 1)
        pc := s.pc + 2 }) ∧
    (r = 7 → s.mem.read s.x[7].toNat = 255 → exec (.pop r) s = .next (s.accessFaulted .mem 256)) ∧
    (r = 7 → s.mem.read s.x[7].toNat ≠ 255 → s.pc.toNat ≤ 253 →
      exec (.pop r) s = .next { s with
        x := s.x.set 7 (s.mem.read s.x[7].toNat + 1)
        pc := s.pc + 2 }) ∧
    (∀ (opc : OpcodeMap) (b2 : Byte), opc.Injective → decodeWindow opc (opc .pop) r b2 = .ok (.pop r))

/-- Rule R170, for every operand byte: the target is read after the push. The rule's check of R7 and its order
of reads are the spec's decisions D9 and D15 (log 10). -/
def Obligations.CallPushesTheReturnAddressAndJumps : Prop :=
  ∀ (r : Byte) (s : State),
    (7 < r.toNat → exec (.call r) s = .next (s.accessFaulted .reg r.toNat)) ∧
    (r.toNat < 8 → s.x[7] = 0 → exec (.call r) s = .next (s.accessFaulted .mem (-1))) ∧
    (∀ h : r.toNat < 8, s.x[7] ≠ 0 → s.pc.toNat ≤ 253 →
      exec (.call r) s = .next { s with
        x := s.x.set 7 (s.x[7] - 1)
        mem := s.mem.write (s.x[7].toNat - 1) (BitVec.ofNat 8 (s.pc.toNat + 2))
        pc := (s.x.set 7 (s.x[7] - 1))[r.toNat]'h }) ∧
    (∀ (opc : OpcodeMap) (b2 : Byte), opc.Injective → decodeWindow opc (opc .call) r b2 = .ok (.call r))

/-- Rule R172. The rule's check of R7 is the spec's decision D9 (log 10). -/
def Obligations.RetPopsIntoThePc : Prop :=
  ∀ s : State,
    (s.x[7] = 255 → exec .ret s = .next (s.accessFaulted .mem 256)) ∧
    (s.x[7] ≠ 255 → exec .ret s = .next { s with
      x := s.x.set 7 (s.x[7] + 1)
      pc := s.mem.read s.x[7].toNat }) ∧
    (∀ (opc : OpcodeMap) (b1 b2 : Byte), opc.Injective → decodeWindow opc (opc .ret) b1 b2 = .ok .ret)

/-- Rule R174, for every operand byte. -/
def Obligations.JmpSetsThePc : Prop :=
  ∀ (r : Byte) (s : State),
    (7 < r.toNat → exec (.jmp r) s = .next (s.accessFaulted .reg r.toNat)) ∧
    (∀ h : r.toNat < 8, exec (.jmp r) s = .next { s with pc := s.x[r.toNat]'h }) ∧
    (∀ (opc : OpcodeMap) (b2 : Byte), opc.Injective → decodeWindow opc (opc .jmp) r b2 = .ok (.jmp r))

/-- Rule R176, for every operand byte, taken or not. That a jump not taken checks its operand is the spec's
decision D12 (log 10). -/
def Obligations.JeqJumpsWhenTheFlagIsOne : Prop :=
  ∀ (r : Byte) (s : State),
    (7 < r.toNat → exec (.jeq r) s = .next (s.accessFaulted .reg r.toNat)) ∧
    (∀ h : r.toNat < 8, s.fl = 1 → exec (.jeq r) s = .next { s with pc := s.x[r.toNat]'h }) ∧
    (r.toNat < 8 → s.fl ≠ 1 → s.pc.toNat ≤ 253 → exec (.jeq r) s = .next { s with pc := s.pc + 2 }) ∧
    (∀ (opc : OpcodeMap) (b2 : Byte), opc.Injective → decodeWindow opc (opc .jeq) r b2 = .ok (.jeq r))

/-- Rule R178, for every operand byte, taken or not; and that JNE is the exact complement of JEQ: in every
state exactly one of the two takes its target. That a jump not taken checks its operand is the spec's decision
D12 (log 10). -/
def Obligations.JneJumpsWhenTheFlagIsZero : Prop :=
  ∀ (r : Byte) (s : State),
    (7 < r.toNat → exec (.jne r) s = .next (s.accessFaulted .reg r.toNat)) ∧
    (∀ h : r.toNat < 8, s.fl = 0 → exec (.jne r) s = .next { s with pc := s.x[r.toNat]'h }) ∧
    (r.toNat < 8 → s.fl ≠ 0 → s.pc.toNat ≤ 253 → exec (.jne r) s = .next { s with pc := s.pc + 2 }) ∧
    (∀ h : r.toNat < 8, s.pc.toNat ≤ 253 → ∃ t u : State,
      exec (.jeq r) s = .next t ∧ exec (.jne r) s = .next u ∧
      ((t.pc = s.x[r.toNat]'h ∧ u.pc = s.pc + 2) ∨ (t.pc = s.pc + 2 ∧ u.pc = s.x[r.toNat]'h))) ∧
    (∀ (opc : OpcodeMap) (b2 : Byte), opc.Injective → decodeWindow opc (opc .jne) r b2 = .ok (.jne r))

/-- Rule R190. -/
def Obligations.HltHaltsCleanly : Prop :=
  (∀ s : State, exec .hlt s = .next { s with run := .halted }) ∧
  (∀ (opc : OpcodeMap) (b1 b2 : Byte), opc.Injective → decodeWindow opc (opc .hlt) b1 b2 = .ok .hlt)

/-- Rule R148's integer laws on the ALU itself: ADD and MUL are exact below 256, wrap above, and have the
stated zero and one laws. Rests on decision D1 of the spec (log 10). -/
def Obligations.AluKeepsTheLowByte : Prop :=
  (∀ a b : Byte, ∃ v : Byte, alu .add a b = .value v ∧
    (v.toNat = a.toNat + b.toNat ∨ v.toNat + 256 = a.toNat + b.toNat)) ∧
  (∀ a b : Byte, ∃ v : Byte, alu .mul a b = .value v ∧ ∃ high, high ≤ 254 ∧
    v.toNat + 256 * high = a.toNat * b.toNat) ∧
  (∀ v : Byte, alu .add v 0 = .value v ∧ alu .mul v 0 = .value 0 ∧ alu .mul v 1 = .value v)

/-! ### Encoding -/

/-- Decode and encode agree (rules R80 to R85), for every instruction, every operand byte and every injective
opcode map, whatever bytes follow. -/
def Obligations.DecodeOfEncodeIsTheInstruction : Prop :=
  ∀ (opc : OpcodeMap) (i : Instr) (rest : List Byte), opc.Injective →
    decode opc (encode opc i ++ rest) = .ok (i, rest)

/-- Each byte string has one meaning: what decodes to an instruction begins with that instruction's encoding. -/
def Obligations.EncodeOfDecodeIsTheBytes : Prop :=
  ∀ (opc : OpcodeMap) (bytes rest : List Byte) (i : Instr),
    decode opc bytes = .ok (i, rest) → encode opc i ++ rest = bytes

/-- Rule R91: dispatch is equality of the whole byte B0 with the values of `OPC`. In a cycle, the value that
matches runs its instruction's meaning on the operand bytes, and when none matches the cycle takes the
unrecognised-opcode path; the decoder answers the same, and answers no instruction whose opcode byte is not B0. -/
def Obligations.DispatchIsWholeByteEquality : Prop :=
  ∀ opc : OpcodeMap, opc.Injective →
    (∀ b0 b1 b2 : Byte,
      (∀ m, b0 = opc m → decodeWindow opc b0 b1 b2 = .ok (instrOf m b1 b2)) ∧
      ((∀ m, b0 ≠ opc m) → decodeWindow opc b0 b1 b2 = .error (.unrecognizedOpcode b0)) ∧
      (∀ i, decodeWindow opc b0 b1 b2 = .ok i → b0 = opc i.mnemonic)) ∧
    (∀ s : State, s.run = .running → s.pc.toNat ≤ 253 →
      (∀ m, s.mem.read s.pc.toNat = opc m →
        stepWith opc s =
          exec (instrOf m (s.mem.read (s.pc.toNat + 1)) (s.mem.read (s.pc.toNat + 2))) s) ∧
      ((∀ m, s.mem.read s.pc.toNat ≠ opc m) → stepWith opc s = .next { s with
        run := .halted
        fault := some ⟨.unrecognizedOpcode, s.pc, some (s.mem.read s.pc.toNat), none, none⟩ }))

/-- Rule R85: an operand byte the format does not declare never changes what is decoded; and the operand
bytes a format declares are the instruction's own. -/
def Obligations.UndeclaredOperandBytesAreIgnored : Prop :=
  ∀ (opc : OpcodeMap) (b0 b1 b2 c1 c2 : Byte) (i : Instr), decodeWindow opc b0 b1 b2 = .ok i →
    (i.length = 1 → decodeWindow opc b0 c1 c2 = .ok i) ∧
    (i.length = 2 → decodeWindow opc b0 b1 c2 = .ok i)

/-- The default opcode map (rule R90, PRESUMED, log 1): it is injective, 243 byte values are unrecognised
(rule R92), and a word for each of the thirteen instructions, written out from the encodings of rules R80 and
R90, decodes to it. -/
def Obligations.DefaultOpcodeWordsDecode : Prop :=
  defaultOpc.Injective ∧
  ((List.range 256).filter fun b => (recognise defaultOpc (BitVec.ofNat 8 b)).isNone).length = 243 ∧
  decodeTableWord 24 0b00001000_00000000_10000010 = some (.ldi 0 8) ∧
  decodeTableWord 16 0b00000011_01000111 = some (.prn 3) ∧
  decodeTableWord 24 0b00000001_00000000_10100000 = some (.add 0 1) ∧
  decodeTableWord 24 0b00000101_00000010_10100010 = some (.mul 2 5) ∧
  decodeTableWord 24 0b00000100_00000011_10100111 = some (.cmp 3 4) ∧
  decodeTableWord 16 0b00000010_01000101 = some (.push 2) ∧
  decodeTableWord 16 0b00000111_01000110 = some (.pop 7) ∧
  decodeTableWord 16 0b00000001_01010000 = some (.call 1) ∧
  decodeTableWord 8 0b00010001 = some .ret ∧
  decodeTableWord 16 0b00000100_01010100 = some (.jmp 4) ∧
  decodeTableWord 16 0b00000101_01010101 = some (.jeq 5) ∧
  decodeTableWord 16 0b00000110_01010110 = some (.jne 6) ∧
  decodeTableWord 8 0b00000001 = some .hlt ∧
  decodeTableWord 8 0b00000000 = none

/-! ### The cycle -/

/-- A step runs the decoded instruction (rules R110 to R112): when the three bytes at `pc` decode to `i`, the
step is `exec i` with nothing added; and `step` is `stepWith` at the default map. -/
def Obligations.StepRunsTheDecodedInstruction : Prop :=
  (∀ s : State, step s = stepWith defaultOpc s) ∧
  ∀ (opc : OpcodeMap) (s : State) (i : Instr) (rest : List Byte),
    s.run = .running → s.pc.toNat ≤ 253 →
    decode opc [s.mem.read s.pc.toNat, s.mem.read (s.pc.toNat + 1), s.mem.read (s.pc.toNat + 2)] =
      .ok (i, rest) →
    stepWith opc s = exec i s

/-- Rule R111 (decision D6): a window that leaves memory faults whatever bytes lie there, and otherwise the
three bytes at `pc`, `pc + 1`, `pc + 2` are read. -/
def Obligations.FetchReadsThreeBytesOrFaults : Prop :=
  ∀ (opc : OpcodeMap) (s : State), s.run = .running →
    (253 < s.pc.toNat → stepWith opc s = .next { s with
      run := .halted
      fault := some ⟨.outOfRangeAccess, s.pc, none, some .mem, some 256⟩ }) ∧
    (s.pc.toNat ≤ 253 → fetch s = .ok ⟨s.mem.read s.pc.toNat, s.mem.read (s.pc.toNat + 1),
      s.mem.read (s.pc.toNat + 2)⟩)

/-- Rule R116: the unrecognised-opcode path. -/
def Obligations.UnrecognizedOpcodeIsFatal : Prop :=
  ∀ (opc : OpcodeMap) (s : State), s.run = .running → s.pc.toNat ≤ 253 →
    (∀ m, opc m ≠ s.mem.read s.pc.toNat) →
    stepWith opc s = .next { s with
      run := .halted
      fault := some ⟨.unrecognizedOpcode, s.pc, some (s.mem.read s.pc.toNat), none, none⟩ }

/-- Rule R29: HALTED is absorbing. That a step from HALTED answers the same state is the model's choice (log 4). -/
def Obligations.HaltedPerformsNoCycle : Prop :=
  ∀ (s : State) (k : Nat), s.run = .halted →
    (∀ opc : OpcodeMap, stepWith opc s = .next s) ∧ Sys2Proof.core.run k s = .next s

/-- Rule R245: the engine, while RUNNING, always performs its next cycle: whatever the bytes in memory, the step
answers a next state, and none ends in a model fault or a refusal, an exception being a next state (log 5). That
a step from HALTED answers a next state too is the model's choice (log 4). -/
def Obligations.EveryStepAnswersANextState : Prop :=
  ∀ (opc : OpcodeMap) (s : State), ∃ t : State, stepWith opc s = .next t

/-- Rules R29, R110, R190, R205: a cycle either goes on RUNNING with FAULT as it was, or executes HLT and
changes RUN alone, or takes an exception and changes RUN and FAULT alone (precise exceptions). -/
def Obligations.CycleContinuesHaltsOrFaultsPrecisely : Prop :=
  ∀ (opc : OpcodeMap) (s t : State), s.run = .running → stepWith opc s = .next t →
    (t.run = .running ∧ t.fault = s.fault) ∨
    (s.mem.read s.pc.toNat = opc .hlt ∧ t = { s with run := .halted }) ∨
    FaultedFrom s t

/-- Rules R201 to R203: the table of sites is complete and exact. A fault recorded by a cycle is one of the
listed rows with its condition holding, and a row whose condition holds makes the cycle fault. -/
def Obligations.FaultsHappenExactlyAtTheListedSites : Prop :=
  ∀ (opc : OpcodeMap) (s t : State), opc.Injective → s.run = .running → s.fault = none →
    stepWith opc s = .next t →
    (∀ f, t.fault = some f → FaultSite opc s f) ∧
    (∀ f, FaultSite opc s f → t.run = .halted ∧ t.fault ≠ none)

/-- Rules R114 and R204: the record is that of the first failing check, in the rule's order. -/
def Obligations.FirstFailingCheckIsTheOneRecorded : Prop :=
  ∀ (opc : OpcodeMap) (s t : State), s.run = .running → s.fault = none →
    stepWith opc s = .next t → t.fault = firstFault opc s

/-- Rule R203: no sequence of program bytes raises UnsupportedOperation. -/
def Obligations.UnsupportedOperationIsNeverRaised : Prop :=
  ∀ (opc : OpcodeMap) (s t : State), stepWith opc s = .next t →
    (∀ f, s.fault = some f → f.cause ≠ .unsupportedOperation) →
    ∀ f, t.fault = some f → f.cause ≠ .unsupportedOperation

/-- Rule R25: how each instruction leaves `pc`, without wrapping (the sums are exact integers), and that an
unrecognised opcode and any other fault leave it unchanged. -/
def Obligations.PcAfterACycle : Prop :=
  ∀ (opc : OpcodeMap) (s t : State), s.run = .running → s.fault = none → stepWith opc s = .next t →
    (t.fault ≠ none → t.pc = s.pc) ∧
    ∀ i : Instr, s.pc.toNat ≤ 253 →
      decodeWindow opc (s.mem.read s.pc.toNat) (s.mem.read (s.pc.toNat + 1)) (s.mem.read (s.pc.toNat + 2)) =
        .ok i →
      t.fault = none →
      match i with
      | .ldi _ _ => t.pc.toNat = s.pc.toNat + 3
      | .add _ _ => t.pc.toNat = s.pc.toNat + 3
      | .mul _ _ => t.pc.toNat = s.pc.toNat + 3
      | .cmp _ _ => t.pc.toNat = s.pc.toNat + 3
      | .prn _ => t.pc.toNat = s.pc.toNat + 2
      | .push _ => t.pc.toNat = s.pc.toNat + 2
      | .pop _ => t.pc.toNat = s.pc.toNat + 2
      | .call r => ∃ k : RegIdx, k.val = r.toNat ∧ t.pc = t.getReg k
      | .ret => t.pc = s.mem.read (s.getReg 7).toNat
      | .jmp r => ∃ k : RegIdx, k.val = r.toNat ∧ t.pc = s.getReg k
      | .jeq r =>
        if s.fl = 1 then ∃ k : RegIdx, k.val = r.toNat ∧ t.pc = s.getReg k
        else t.pc.toNat = s.pc.toNat + 2
      | .jne r =>
        if s.fl = 0 then ∃ k : RegIdx, k.val = r.toNat ∧ t.pc = s.getReg k
        else t.pc.toNat = s.pc.toNat + 2
      | .hlt => t.pc = s.pc

/-- The host's word placed where the next fetch reads it is the very next step's instruction (log 7). -/
def Obligations.PlacedWordIsTheNextStepsInstruction : Prop :=
  ∀ (s : State) (nbits w : Nat) (i : Instr), s.mem.wf = true → decodeTableWord nbits w = some i →
    step (s.withFetchWord nbits w) = exec i (s.withFetchWord nbits w)

/-! ### Frames and whole-machine rules -/

/-- Frame of the instructions that write one register: LDI, ADD and MUL change nothing but their destination
register and `pc`, or take an exception that changes RUN and FAULT alone. -/
def Obligations.LdiAddMulFrame : Prop :=
  ∀ (i : Instr) (d v : Byte) (s t : State), (i = .ldi d v ∨ i = .add d v ∨ i = .mul d v) →
    exec i s = .next t →
    (∀ k : RegIdx, k.val ≠ d.toNat → t.getReg k = s.getReg k) ∧ t.fl = s.fl ∧ t.out = s.out ∧
    (∀ a, t.mem.read a = s.mem.read a) ∧ ((t.run = s.run ∧ t.fault = s.fault) ∨ FaultedFrom s t)

/-- Frame of the instructions that write no register: PRN, CMP, JMP, JEQ, JNE, HLT. FL changes only by CMP,
OUT only by PRN, RUN without an exception only by HLT. -/
def Obligations.PrnCmpJumpHltFrame : Prop :=
  ∀ (i : Instr) (r b : Byte) (s t : State),
    (i = .prn r ∨ i = .cmp r b ∨ i = .jmp r ∨ i = .jeq r ∨ i = .jne r ∨ i = .hlt) →
    exec i s = .next t →
    (∀ k : RegIdx, t.getReg k = s.getReg k) ∧ (∀ a, t.mem.read a = s.mem.read a) ∧
    (i ≠ .cmp r b → t.fl = s.fl) ∧ (i ≠ .prn r → t.out = s.out) ∧
    ((t.fault = s.fault ∧ (i ≠ .hlt → t.run = s.run)) ∨ FaultedFrom s t)

/-- Frame of the storing instructions PUSH and CALL: R7 is also updated, and the one byte stored is at the
address `pushAddress` computes, the same function the meanings use; where it raises, nothing is stored. -/
def Obligations.PushCallFrame : Prop :=
  ∀ (i : Instr) (r : Byte) (s t : State), (i = .push r ∨ i = .call r) → exec i s = .next t →
    (∀ k : RegIdx, k ≠ 7 → t.getReg k = s.getReg k) ∧ t.fl = s.fl ∧ t.out = s.out ∧
    (∀ a : Byte, pushAddress s = .ok a → ∀ b, b ≠ a.toNat → t.mem.read b = s.mem.read b) ∧
    (∀ e, pushAddress s = .error e → ∀ b, t.mem.read b = s.mem.read b) ∧
    ((t.run = s.run ∧ t.fault = s.fault) ∨ FaultedFrom s t)

/-- Frame of the popping instructions POP and RET: R7 is also updated; memory is not changed (rule R34). -/
def Obligations.PopRetFrame : Prop :=
  ∀ (i : Instr) (s t : State), exec i s = .next t →
    (∀ r : Byte, i = .pop r →
      (∀ k : RegIdx, k.val ≠ r.toNat → k ≠ 7 → t.getReg k = s.getReg k) ∧ t.fl = s.fl ∧ t.out = s.out ∧
      (∀ a, t.mem.read a = s.mem.read a) ∧ ((t.run = s.run ∧ t.fault = s.fault) ∨ FaultedFrom s t)) ∧
    (i = .ret →
      (∀ k : RegIdx, k ≠ 7 → t.getReg k = s.getReg k) ∧ t.fl = s.fl ∧ t.out = s.out ∧
      (∀ a, t.mem.read a = s.mem.read a) ∧ ((t.run = s.run ∧ t.fault = s.fault) ∨ FaultedFrom s t))

/-- Rule R23, its table as an upper bound. A register outside the "written" column keeps its value; and a
register outside the "read" column has no influence: with another value in it the cycle ends in the same state but
for that register, which keeps the value it was given where the cycle does not write it, and ends with the same
value where the cycle does. -/
def Obligations.RegistersReadAndWritten : Prop :=
  (∀ (i : Instr) (s t : State) (k : RegIdx), exec i s = .next t → writesReg k i = false →
    t.getReg k = s.getReg k) ∧
  (∀ (i : Instr) (s : State) (k : RegIdx) (v : Byte), readsReg s.fl k i = false →
    ∃ t u : State, exec i s = .next t ∧ exec i (s.setReg k v) = .next u ∧
      (writesReg k i = false → u = t.setReg k v) ∧
      (writesReg k i = true → u = t ∨ (FaultedFrom s t ∧ u = t.setReg k v)))

/-- Rule R23, its table as a lower bound, for every instruction with legal register operands. Each register of
the "written" column is changed from some state; and each register of the "read" column has influence from some
state with that FL: with another value in it the cycle ends neither in the same state nor in the same state but
for that register. CMP of a register with itself is left out: it sets FL to 1 whatever the register holds
(rule R146), so its read shows nowhere. -/
def Obligations.EveryListedRegisterIsWrittenAndRead : Prop :=
  (∀ (i : Instr) (k : RegIdx), i.wf = true → writesReg k i = true →
    ∃ s t : State, exec i s = .next t ∧ t.getReg k ≠ s.getReg k) ∧
  (∀ (i : Instr) (f : Flag) (k : RegIdx), i.wf = true → readsReg f k i = true → (∀ a, i ≠ .cmp a a) →
    ∃ (s t u : State) (v : Byte), s.fl = f ∧ exec i s = .next t ∧ exec i (s.setReg k v) = .next u ∧
      u ≠ t ∧ u ≠ t.setReg k v)

/-- Rule R28: FL is written by CMP alone, and read by JEQ and JNE alone: for any other instruction the value of
FL has no influence on anything else. -/
def Obligations.FlagWrittenByCmpReadByJumps : Prop :=
  (∀ (i : Instr) (s t : State), exec i s = .next t → (∀ a b, i ≠ .cmp a b) → t.fl = s.fl) ∧
  (∀ (i : Instr) (s : State) (f : Flag), (∀ r, i ≠ .jeq r) → (∀ r, i ≠ .jne r) →
    ∃ t u : State, exec i s = .next t ∧ exec i { s with fl := f } = .next u ∧
      u.mem = t.mem ∧ u.x = t.x ∧ u.pc = t.pc ∧ u.run = t.run ∧ u.fault = t.fault ∧ u.out = t.out)

/-- Rule R34: during execution memory is written by PUSH and CALL only. -/
def Obligations.MemoryIsWrittenByPushAndCallOnly : Prop :=
  ∀ (opc : OpcodeMap) (s t : State), stepWith opc s = .next t →
    s.mem.read s.pc.toNat ≠ opc .push → s.mem.read s.pc.toNat ≠ opc .call → t.mem = s.mem

/-- Rule R38: OUT is append-only, and only PRN appends, one integer, the value of its register. -/
def Obligations.OutputIsAppendedByPrnOnly : Prop :=
  ∀ (opc : OpcodeMap) (s t : State), stepWith opc s = .next t →
    t.out = s.out ∨
    (s.mem.read s.pc.toNat = opc .prn ∧ ∃ k : RegIdx, k.val = (s.mem.read (s.pc.toNat + 1)).toNat ∧
      t.out = s.out ++ [(s.getReg k).toNat])

/-- Rule R163: in PUSH, CALL, POP and RET the stack pointer never wraps: without an exception it moves by
exactly one as an integer (POP R7: to the loaded byte plus one). -/
def Obligations.StackPointerNeverWraps : Prop :=
  ∀ (i : Instr) (s t : State), s.fault = none → exec i s = .next t → t.fault = none →
    (∀ r, i = .push r ∨ i = .call r → (t.getReg 7).toNat + 1 = (s.getReg 7).toNat) ∧
    (∀ r, i = .pop r → r ≠ 7 → (t.getReg 7).toNat = (s.getReg 7).toNat + 1) ∧
    (i = .pop 7 → (t.getReg 7).toNat = (s.mem.read (s.getReg 7).toNat).toNat + 1) ∧
    (i = .ret → (t.getReg 7).toNat = (s.getReg 7).toNat + 1)

/-- Rule R51: a read returns the byte most recently written to the cell, or 0 if nothing has written it since
reset: for any sequence of writes, oldest first. -/
def Obligations.ReadReturnsTheLatestWrite : Prop :=
  ∀ (writes : List (Byte × Byte)) (a : Byte),
    Memory.read (writes.foldl (fun m w => Memory.write m w.1.toNat w.2) memReset) a.toNat =
      match writes.reverse.find? fun w => w.1 == a with
      | some w => w.2
      | none => 0

/-- Rule R63: a byte stored by PUSH or CALL is what every later fetch of that cell reads, in any state that
still holds that memory, as opcode or as operand. -/
def Obligations.StoresAreSeenByLaterFetches : Prop :=
  ∀ (i : Instr) (r a v : Byte) (s t u : State) (w : Window), s.mem.wf = true → s.fault = none →
    ((i = .push r ∧ ∃ k : RegIdx, k.val = r.toNat ∧ v = t.getReg k) ∨ (i = .call r ∧ v = s.pc + 2)) →
    exec i s = .next t → t.fault = none → pushAddress s = .ok a →
    u.mem = t.mem → fetch u = .ok w →
    (u.pc.toNat = a.toNat → w.b0 = v) ∧ (u.pc.toNat + 1 = a.toNat → w.b1 = v) ∧
    (u.pc.toNat + 2 = a.toNat → w.b2 = v)

/-- Rule R164: PUSH then POP of the same register restores every register, R7 included, and leaves the pushed
value in memory. -/
def Obligations.PushThenPopRestores : Prop :=
  ∀ (r : Byte) (s : State) (h : r.toNat < 8), s.mem.wf = true → s.getReg 7 ≠ 0 → s.pc.toNat ≤ 251 →
    ∃ t u : State, exec (.push r) s = .next t ∧ exec (.pop r) t = .next u ∧ u.x = s.x ∧
      u.fault = s.fault ∧ u.run = s.run ∧
      u.mem.read ((s.getReg 7).toNat - 1) = t.getReg ⟨r.toNat, h⟩

/-- Rule R180: RET after a CALL, with the stack pointer back where the CALL left it and the return address
still in its cell, returns to the instruction after the CALL and restores the stack pointer; and a RET that is
the CALL's very target does so with every register unchanged. -/
def Obligations.CallThenRetReturns : Prop :=
  ∀ (r : Byte) (s : State), r.toNat < 7 → s.mem.wf = true → s.getReg 7 ≠ 0 → s.pc.toNat ≤ 253 →
    ∃ t : State, exec (.call r) s = .next t ∧
      (∀ u : State, u.getReg 7 = t.getReg 7 → u.mem.read (u.getReg 7).toNat = s.pc + 2 →
        ∃ w : State, exec .ret u = .next w ∧ w.pc.toNat = s.pc.toNat + 2 ∧ w.getReg 7 = s.getReg 7) ∧
      (∃ w : State, exec .ret t = .next w ∧ w.pc.toNat = s.pc.toNat + 2 ∧ w.x = s.x ∧
        w.mem.read ((s.getReg 7).toNat - 1) = s.pc + 2)

/-- Rule R149: ADD and MUL commute, and CMP is symmetric. -/
def Obligations.AddMulCmpAreSymmetric : Prop :=
  ∀ (a b : Byte) (s : State) (ha : a.toNat < 8) (hb : b.toNat < 8), a ≠ b → s.pc.toNat ≤ 252 →
    (∃ t u : State, exec (.add a b) s = .next t ∧ exec (.add b a) s = .next u ∧
      t.getReg ⟨a.toNat, ha⟩ = u.getReg ⟨b.toNat, hb⟩) ∧
    (∃ t u : State, exec (.mul a b) s = .next t ∧ exec (.mul b a) s = .next u ∧
      t.getReg ⟨a.toNat, ha⟩ = u.getReg ⟨b.toNat, hb⟩) ∧
    (∃ t u : State, exec (.cmp a b) s = .next t ∧ exec (.cmp b a) s = .next u ∧ t.fl = u.fl)

/-! ### Invariant and status -/

/-- Every step keeps the invariant of `State.Inv`, from every state that meets it and for every opcode map. -/
def Obligations.StepKeepsTheStateLegal : Prop :=
  ∀ (opc : OpcodeMap) (s t : State), s.Inv → stepWith opc s = .next t → t.Inv

/-- The reset state meets the invariant. -/
def Obligations.ResetStateIsLegal : Prop := State.reset.Inv

/-- Every launch state meets the invariant. -/
def Obligations.LaunchStateIsLegal : Prop :=
  ∀ (spReset : Byte) (image : List Byte) (s : State), launchWith spReset image = some s → s.Inv

/-- Equal memories are equal data: two memories in canonical form that read the same in the 256 cells are the
same list. -/
def Obligations.MemoryFormIsCanonical : Prop :=
  ∀ m m' : Memory, m.wf = true → m'.wf = true → (∀ a, a < 256 → m.read a = m'.read a) → m = m'

/-- Rule R39: success if and only if HALTED with no fault, failure if and only if HALTED with a record, whatever
its cause, and no status while RUNNING; the failure code is the open parameter `EXIT_FAIL` (log 12). -/
def Obligations.ExitStatusIsAFunctionOfTheFinalState : Prop :=
  ∀ s : State,
    (s.exitStatus = some .success ↔ s.run = .halted ∧ s.fault = none) ∧
    (s.exitStatus = some .failure ↔ s.run = .halted ∧ s.fault ≠ none) ∧
    (∀ exitFail : Int, exitFail ≠ 0 → (exitCode exitFail s = some exitFail ↔ s.run = .halted ∧ s.fault ≠ none))
end

