-- ==== Sys2Proof/Laws/Decode.lean ====
section
/-! SUPPORT. What the decoder's parts do, said once. -/

namespace Sys2Proof

theorem Mnemonic.mem_all (m : Mnemonic) : m ∈ Mnemonic.all := by cases m <;> decide

theorem recognise_some {opc : OpcodeMap} {b0 : Byte} {m : Mnemonic} (h : recognise opc b0 = some m) :
    opc m = b0 := by
  simpa using List.find?_some h

theorem recognise_none_iff {opc : OpcodeMap} {b0 : Byte} :
    recognise opc b0 = none ↔ ∀ m, opc m ≠ b0 := by
  simp only [recognise, List.find?_eq_none, beq_iff_eq]
  exact ⟨fun h m => h m m.mem_all, fun h m _ => h m⟩

/-- With an injective map, each opcode byte is recognised as its own mnemonic. -/
theorem recognise_opc {opc : OpcodeMap} (hinj : opc.Injective) (m : Mnemonic) :
    recognise opc (opc m) = some m := by
  cases h : recognise opc (opc m) with
  | none => exact absurd rfl (recognise_none_iff.mp h m)
  | some m' => rw [hinj m' m (recognise_some h)]

theorem decodeWindow_ok_iff {opc : OpcodeMap} {b0 b1 b2 : Byte} {i : Instr} :
    decodeWindow opc b0 b1 b2 = .ok i ↔ ∃ m, recognise opc b0 = some m ∧ instrOf m b1 b2 = i := by
  unfold decodeWindow
  cases recognise opc b0 <;> simp

theorem instrOf_mnemonic (m : Mnemonic) (b1 b2 : Byte) : (instrOf m b1 b2).mnemonic = m := by
  cases m <;> rfl

/-- What a decoded window says of its bytes: B0 is the instruction's opcode byte and the operand bytes are
its own. -/
theorem decodeWindow_ok {opc : OpcodeMap} {b0 b1 b2 : Byte} {i : Instr}
    (h : decodeWindow opc b0 b1 b2 = .ok i) : opc i.mnemonic = b0 ∧ instrOf i.mnemonic b1 b2 = i := by
  obtain ⟨m, hm, rfl⟩ := decodeWindow_ok_iff.mp h
  rw [instrOf_mnemonic]
  exact ⟨recognise_some hm, rfl⟩

/-- The byte-list decoder on a fetch window is the window decoder. -/
theorem decode_window (opc : OpcodeMap) (b0 b1 b2 : Byte) :
    decode opc [b0, b1, b2] = (decodeWindow opc b0 b1 b2).map
      fun i => (i, [b1, b2].drop i.mnemonic.operandCount) := by
  simp only [decode, decodeWindow]
  cases recognise opc b0 with
  | none => rfl
  | some m => cases m <;> rfl

end Sys2Proof
end

