-- ==== Sys2Proof/Laws/State.lean ====
section
/-! SUPPORT. One lemma per field per update of State, and what a register reads as after an update. -/

namespace Sys2Proof.Machine

section SetReg
variable (s : State) (k j : RegIdx) (v w : Byte)

@[simp] theorem State.setReg_mem : (s.setReg k v).mem = s.mem := rfl
@[simp] theorem State.setReg_pc : (s.setReg k v).pc = s.pc := rfl
@[simp] theorem State.setReg_fl : (s.setReg k v).fl = s.fl := rfl
@[simp] theorem State.setReg_run : (s.setReg k v).run = s.run := rfl
@[simp] theorem State.setReg_fault : (s.setReg k v).fault = s.fault := rfl
@[simp] theorem State.setReg_out : (s.setReg k v).out = s.out := rfl

theorem State.getReg_setReg :
    (s.setReg k v).getReg j = if k = j then v else s.getReg j := by
  simp [State.setReg, State.getReg, Vector.getElem_set, Fin.ext_iff]

@[simp] theorem State.getReg_setReg_self : (s.setReg k v).getReg k = v := by
  simp [State.getReg_setReg]

theorem State.getReg_setReg_of_ne (h : k ≠ j) : (s.setReg k v).getReg j = s.getReg j := by
  simp [State.getReg_setReg, h]

@[simp] theorem State.memRead_setReg (a : Byte) : (s.setReg k v).memRead a = s.memRead a := rfl

end SetReg

section SetSp
variable (s : State) (v : Byte)

@[simp] theorem State.setSp_mem : (s.setSp v).mem = s.mem := rfl
@[simp] theorem State.setSp_pc : (s.setSp v).pc = s.pc := rfl
@[simp] theorem State.setSp_fl : (s.setSp v).fl = s.fl := rfl
@[simp] theorem State.setSp_run : (s.setSp v).run = s.run := rfl
@[simp] theorem State.setSp_fault : (s.setSp v).fault = s.fault := rfl
@[simp] theorem State.setSp_out : (s.setSp v).out = s.out := rfl

theorem State.getReg_setSp (j : RegIdx) :
    (s.setSp v).getReg j = if spIndex = j then v else s.getReg j := State.getReg_setReg s spIndex j v

@[simp] theorem State.sp_setSp : (s.setSp v).sp = v := State.getReg_setReg_self s spIndex v

theorem State.sp_setReg (k : RegIdx) :
    (s.setReg k v).sp = if k = spIndex then v else s.sp := State.getReg_setReg s k spIndex v

end SetSp

section SetPc
variable (s : State) (v : Byte)

@[simp] theorem State.setPc_mem : (s.setPc v).mem = s.mem := rfl
@[simp] theorem State.setPc_x : (s.setPc v).x = s.x := rfl
@[simp] theorem State.setPc_pc : (s.setPc v).pc = v := rfl
@[simp] theorem State.setPc_fl : (s.setPc v).fl = s.fl := rfl
@[simp] theorem State.setPc_run : (s.setPc v).run = s.run := rfl
@[simp] theorem State.setPc_fault : (s.setPc v).fault = s.fault := rfl
@[simp] theorem State.setPc_out : (s.setPc v).out = s.out := rfl
@[simp] theorem State.getReg_setPc (k : RegIdx) : (s.setPc v).getReg k = s.getReg k := rfl
@[simp] theorem State.sp_setPc : (s.setPc v).sp = s.sp := rfl
@[simp] theorem State.memRead_setPc (a : Byte) : (s.setPc v).memRead a = s.memRead a := rfl

end SetPc

section SetFl
variable (s : State) (f : Flag)

@[simp] theorem State.setFl_mem : (s.setFl f).mem = s.mem := rfl
@[simp] theorem State.setFl_x : (s.setFl f).x = s.x := rfl
@[simp] theorem State.setFl_pc : (s.setFl f).pc = s.pc := rfl
@[simp] theorem State.setFl_fl : (s.setFl f).fl = f := rfl
@[simp] theorem State.setFl_run : (s.setFl f).run = s.run := rfl
@[simp] theorem State.setFl_fault : (s.setFl f).fault = s.fault := rfl
@[simp] theorem State.setFl_out : (s.setFl f).out = s.out := rfl
@[simp] theorem State.getReg_setFl (k : RegIdx) : (s.setFl f).getReg k = s.getReg k := rfl
@[simp] theorem State.sp_setFl : (s.setFl f).sp = s.sp := rfl

end SetFl

section MemWrite
variable (s : State) (a v : Byte)

@[simp] theorem State.memWrite_mem : (s.memWrite a v).mem = s.mem.write a.toNat v := rfl
@[simp] theorem State.memWrite_x : (s.memWrite a v).x = s.x := rfl
@[simp] theorem State.memWrite_pc : (s.memWrite a v).pc = s.pc := rfl
@[simp] theorem State.memWrite_fl : (s.memWrite a v).fl = s.fl := rfl
@[simp] theorem State.memWrite_run : (s.memWrite a v).run = s.run := rfl
@[simp] theorem State.memWrite_fault : (s.memWrite a v).fault = s.fault := rfl
@[simp] theorem State.memWrite_out : (s.memWrite a v).out = s.out := rfl
@[simp] theorem State.getReg_memWrite (k : RegIdx) : (s.memWrite a v).getReg k = s.getReg k := rfl
@[simp] theorem State.sp_memWrite : (s.memWrite a v).sp = s.sp := rfl

end MemWrite

section Emit
variable (s : State) (v : Nat)

@[simp] theorem State.emit_mem : (s.emit v).mem = s.mem := rfl
@[simp] theorem State.emit_x : (s.emit v).x = s.x := rfl
@[simp] theorem State.emit_pc : (s.emit v).pc = s.pc := rfl
@[simp] theorem State.emit_fl : (s.emit v).fl = s.fl := rfl
@[simp] theorem State.emit_run : (s.emit v).run = s.run := rfl
@[simp] theorem State.emit_fault : (s.emit v).fault = s.fault := rfl
@[simp] theorem State.emit_out : (s.emit v).out = s.out ++ [v] := rfl
@[simp] theorem State.getReg_emit (k : RegIdx) : (s.emit v).getReg k = s.getReg k := rfl

end Emit

section Halt
variable (s : State)

@[simp] theorem State.halt_mem : s.halt.mem = s.mem := rfl
@[simp] theorem State.halt_x : s.halt.x = s.x := rfl
@[simp] theorem State.halt_pc : s.halt.pc = s.pc := rfl
@[simp] theorem State.halt_fl : s.halt.fl = s.fl := rfl
@[simp] theorem State.halt_run : s.halt.run = .halted := rfl
@[simp] theorem State.halt_fault : s.halt.fault = s.fault := rfl
@[simp] theorem State.halt_out : s.halt.out = s.out := rfl
@[simp] theorem State.getReg_halt (k : RegIdx) : s.halt.getReg k = s.getReg k := rfl

end Halt

section Exception
variable (s : State) (r : Raise)

@[simp] theorem State.raise_mem : (s.raise r).mem = s.mem := rfl
@[simp] theorem State.raise_x : (s.raise r).x = s.x := rfl
@[simp] theorem State.raise_pc : (s.raise r).pc = s.pc := rfl
@[simp] theorem State.raise_fl : (s.raise r).fl = s.fl := rfl
@[simp] theorem State.raise_run : (s.raise r).run = .halted := rfl
@[simp] theorem State.raise_fault :
    (s.raise r).fault = some ⟨r.cause, s.pc, r.opcode, r.kind, r.index⟩ := rfl
@[simp] theorem State.raise_out : (s.raise r).out = s.out := rfl
@[simp] theorem State.getReg_raise (k : RegIdx) : (s.raise r).getReg k = s.getReg k := rfl
@[simp] theorem State.b0_raise : (s.raise r).b0 = s.b0 := rfl

end Exception

section Push
variable (s : State) (a : Byte) (f : State → Byte)

@[simp] theorem push_mem : (push s a f).mem = s.mem.write a.toNat (f (s.setSp a)) := rfl
@[simp] theorem push_x : (push s a f).x = (s.setSp a).x := rfl
@[simp] theorem push_pc : (push s a f).pc = s.pc := rfl
@[simp] theorem push_fl : (push s a f).fl = s.fl := rfl
@[simp] theorem push_run : (push s a f).run = s.run := rfl
@[simp] theorem push_fault : (push s a f).fault = s.fault := rfl
@[simp] theorem push_out : (push s a f).out = s.out := rfl
@[simp] theorem getReg_push (k : RegIdx) : (push s a f).getReg k = (s.setSp a).getReg k := rfl
@[simp] theorem sp_push : (push s a f).sp = a := State.sp_setSp s a

end Push

/-- Two states with the same items, registers compared one by one, are the same state. -/
theorem State.ext_reg {s t : State} (hm : s.mem = t.mem) (hx : ∀ k, s.getReg k = t.getReg k)
    (hp : s.pc = t.pc) (hf : s.fl = t.fl) (hr : s.run = t.run) (hq : s.fault = t.fault)
    (ho : s.out = t.out) : s = t := by
  cases s
  cases t
  simp only [State.mk.injEq]
  refine ⟨hm, Vector.ext fun k hk => hx ⟨k, hk⟩, hp, hf, hr, hq, ho⟩

end Sys2Proof.Machine
end

