-- ==== Sys2Proof/Laws/Ops.lean ====
section
/-! SUPPORT. What each shared operation can do, said once. -/

namespace Sys2Proof.Machine

/-- A cycle ends in the state its writes made or in the state with an exception taken. -/
theorem finish_cases {s t : State} {c : Except Raise State} (h : finish s c = .next t) :
    c = .ok t ∨ ∃ r, c = .error r ∧ t = s.raise r := by
  cases c with
  | ok u => exact .inl (by simpa [finish] using h)
  | error r => exact .inr ⟨r, rfl, by simpa [finish] using h.symm⟩

@[simp] theorem finish_ok (s t : State) : finish s (.ok t) = .next t := rfl
@[simp] theorem finish_error (s : State) (r : Raise) : finish s (.error r) = .next (s.raise r) := rfl

section Checks
variable (s : State) (v : Byte)

theorem reg_ok {v : Byte} (h : v.toNat < 8) : reg s v = .ok ⟨v.toNat, h⟩ := by simp [reg, h]

theorem reg_error {v : Byte} (h : 7 < v.toNat) : reg s v = .error (outOfRange s .reg v.toNat) := by
  simp [reg, show ¬ v.toNat < 8 by omega]

theorem reg_cases : (∃ h : v.toNat < 8, reg s v = .ok ⟨v.toNat, h⟩) ∨
    (7 < v.toNat ∧ reg s v = .error (outOfRange s .reg v.toNat)) := by
  by_cases h : v.toNat < 8
  · exact .inl ⟨h, reg_ok s h⟩
  · exact .inr ⟨by omega, reg_error s (by omega)⟩

theorem advance_ok {s : State} {n : Nat} (h : s.pc.toNat + n ≤ 255) :
    advance s n = .ok (s.pc + BitVec.ofNat 8 n) := by
  simp only [advance, h, if_true]
  congr 1
  apply BitVec.eq_of_toNat_eq
  simp

theorem advance_error {s : State} {n : Nat} (h : 255 < s.pc.toNat + n) :
    advance s n = .error (outOfRange s .pc ((s.pc.toNat + n : Nat) : Int)) := by
  simp [advance, show ¬ s.pc.toNat + n ≤ 255 by omega]

theorem advance_cases (n : Nat) :
    (s.pc.toNat + n ≤ 255 ∧ advance s n = .ok (s.pc + BitVec.ofNat 8 n)) ∨
    (255 < s.pc.toNat + n ∧ advance s n = .error (outOfRange s .pc ((s.pc.toNat + n : Nat) : Int))) := by
  by_cases h : s.pc.toNat + n ≤ 255
  · exact .inl ⟨h, advance_ok h⟩
  · exact .inr ⟨by omega, advance_error (by omega)⟩

theorem pushAddress_ok {s : State} (h : s.sp ≠ 0) : pushAddress s = .ok (s.sp - 1) := by
  have hp : 0 < s.sp.toNat := by
    rcases Nat.eq_zero_or_pos s.sp.toNat with h0 | h0
    · exact absurd (BitVec.eq_of_toNat_eq (by simpa using h0)) h
    · exact h0
  have hl := s.sp.isLt
  simp only [pushAddress, memIndex, show (0 : Int) ≤ (s.sp.toNat : Int) - 1 ∧ (s.sp.toNat : Int) - 1 ≤ 255
    from ⟨by omega, by omega⟩, and_self, if_true]
  congr 1
  apply BitVec.eq_of_toNat_eq
  simp [BitVec.toNat_sub]
  omega

theorem pushAddress_error {s : State} (h : s.sp = 0) :
    pushAddress s = .error (outOfRange s .mem (-1)) := by
  simp [pushAddress, memIndex, h]

theorem pushAddress_cases :
    (s.sp ≠ 0 ∧ pushAddress s = .ok (s.sp - 1)) ∨
    (s.sp = 0 ∧ pushAddress s = .error (outOfRange s .mem (-1))) := by
  by_cases h : s.sp = 0
  · exact .inr ⟨h, pushAddress_error h⟩
  · exact .inl ⟨h, pushAddress_ok h⟩

theorem popIncrement_ok {v : Byte} (h : v ≠ 255) : popIncrement s v = .ok (v + 1) := by
  have hl := v.isLt
  have hne : v.toNat ≠ 255 := fun h' => h (BitVec.eq_of_toNat_eq (by simpa using h'))
  simp only [popIncrement, memIndex, show (0 : Int) ≤ (v.toNat : Int) + 1 ∧ (v.toNat : Int) + 1 ≤ 255
    from ⟨by omega, by omega⟩, and_self, if_true]
  congr 1

theorem popIncrement_error {v : Byte} (h : v = 255) :
    popIncrement s v = .error (outOfRange s .mem 256) := by
  simp [popIncrement, memIndex, h]

theorem popIncrement_cases :
    (v ≠ 255 ∧ popIncrement s v = .ok (v + 1)) ∨
    (v = 255 ∧ popIncrement s v = .error (outOfRange s .mem 256)) := by
  by_cases h : v = 255
  · exact .inr ⟨h, popIncrement_error s h⟩
  · exact .inl ⟨h, popIncrement_ok s h⟩

end Checks

/-- Bind of a check that passed. -/
@[simp] theorem check_ok_bind {α β : Type} (a : α) (f : α → Except Raise β) :
    (Except.ok a >>= f) = f a := rfl

/-- Bind of a check that raised: nothing after it is performed. -/
@[simp] theorem check_error_bind {α β : Type} (r : Raise) (f : α → Except Raise β) :
    ((Except.error r : Except Raise α) >>= f) = .error r := rfl

@[simp] theorem check_pure {α : Type} (a : α) : (pure a : Except Raise α) = .ok a := rfl

end Sys2Proof.Machine
end

