-- ==== Sys2Proof/Laws/Exec.lean ====
section
/-! SUPPORT. What each meaning can do, said once: every outcome with the condition under which it happens.
Later proofs cite these lemmas and never unfold a meaning. -/

namespace Sys2Proof.Machine

variable (s : State)

theorem execLdi_cases (r v : Byte) :
    (7 < r.toNat ∧ execLdi r v s = .next (s.raise (outOfRange s .reg r.toNat))) ∨
    (r.toNat < 8 ∧ 255 < s.pc.toNat + 3 ∧
      execLdi r v s = .next (s.raise (outOfRange s .pc ((s.pc.toNat + 3 : Nat) : Int)))) ∨
    (∃ h : r.toNat < 8, s.pc.toNat + 3 ≤ 255 ∧
      execLdi r v s = .next ((s.setReg ⟨r.toNat, h⟩ v).setPc (s.pc + 3))) := by
  unfold execLdi
  rcases reg_cases s r with ⟨h, hr⟩ | ⟨h, hr⟩
  · rcases advance_cases s 3 with ⟨hp, ha⟩ | ⟨hp, ha⟩
    · exact .inr (.inr ⟨h, hp, by simp [hr, ha]⟩)
    · exact .inr (.inl ⟨h, hp, by simp [hr, ha]⟩)
  · exact .inl ⟨h, by simp [hr]⟩

theorem execPrn_cases (r : Byte) :
    (7 < r.toNat ∧ execPrn r s = .next (s.raise (outOfRange s .reg r.toNat))) ∨
    (r.toNat < 8 ∧ 255 < s.pc.toNat + 2 ∧
      execPrn r s = .next (s.raise (outOfRange s .pc ((s.pc.toNat + 2 : Nat) : Int)))) ∨
    (∃ h : r.toNat < 8, s.pc.toNat + 2 ≤ 255 ∧
      execPrn r s = .next ((s.emit (s.getReg ⟨r.toNat, h⟩).toNat).setPc (s.pc + 2))) := by
  unfold execPrn
  rcases reg_cases s r with ⟨h, hr⟩ | ⟨h, hr⟩
  · rcases advance_cases s 2 with ⟨hp, ha⟩ | ⟨hp, ha⟩
    · exact .inr (.inr ⟨h, hp, by simp [hr, ha]⟩)
    · exact .inr (.inl ⟨h, hp, by simp [hr, ha]⟩)
  · exact .inl ⟨h, by simp [hr]⟩

theorem aluCycle_cases (op : AluOp) (a b : Byte) :
    (7 < a.toNat ∧ aluCycle op a b s = .next (s.raise (outOfRange s .reg a.toNat))) ∨
    (a.toNat < 8 ∧ 7 < b.toNat ∧ aluCycle op a b s = .next (s.raise (outOfRange s .reg b.toNat))) ∨
    (a.toNat < 8 ∧ b.toNat < 8 ∧ 255 < s.pc.toNat + 3 ∧
      aluCycle op a b s = .next (s.raise (outOfRange s .pc ((s.pc.toNat + 3 : Nat) : Int)))) ∨
    (∃ (ha : a.toNat < 8) (hb : b.toNat < 8), s.pc.toNat + 3 ≤ 255 ∧
      aluCycle op a b s = .next ((writeAluResult s ⟨a.toNat, ha⟩
        (alu op (s.getReg ⟨a.toNat, ha⟩) (s.getReg ⟨b.toNat, hb⟩))).setPc (s.pc + 3))) := by
  unfold aluCycle
  rcases reg_cases s a with ⟨ha, hra⟩ | ⟨ha, hra⟩
  · rcases reg_cases s b with ⟨hb, hrb⟩ | ⟨hb, hrb⟩
    · rcases advance_cases s 3 with ⟨hp, hn⟩ | ⟨hp, hn⟩
      · exact .inr (.inr (.inr ⟨ha, hb, hp, by simp [hra, hrb, hn]⟩))
      · exact .inr (.inr (.inl ⟨ha, hb, hp, by simp [hra, hrb, hn]⟩))
    · exact .inr (.inl ⟨ha, hb, by simp [hra, hrb]⟩)
  · exact .inl ⟨ha, by simp [hra]⟩

theorem execPush_cases (r : Byte) :
    (7 < r.toNat ∧ execPush r s = .next (s.raise (outOfRange s .reg r.toNat))) ∨
    (r.toNat < 8 ∧ s.sp = 0 ∧ execPush r s = .next (s.raise (outOfRange s .mem (-1)))) ∨
    (r.toNat < 8 ∧ s.sp ≠ 0 ∧ 255 < s.pc.toNat + 2 ∧
      execPush r s = .next (s.raise (outOfRange s .pc ((s.pc.toNat + 2 : Nat) : Int)))) ∨
    (∃ h : r.toNat < 8, s.sp ≠ 0 ∧ s.pc.toNat + 2 ≤ 255 ∧
      execPush r s =
        .next ((push s (s.sp - 1) fun t => t.getReg ⟨r.toNat, h⟩).setPc (s.pc + 2))) := by
  unfold execPush
  rcases reg_cases s r with ⟨h, hr⟩ | ⟨h, hr⟩
  · rcases pushAddress_cases s with ⟨hs, hq⟩ | ⟨hs, hq⟩
    · rcases advance_cases s 2 with ⟨hp, ha⟩ | ⟨hp, ha⟩
      · exact .inr (.inr (.inr ⟨h, hs, hp, by simp [hr, hq, ha]⟩))
      · exact .inr (.inr (.inl ⟨h, hs, hp, by simp [hr, hq, ha]⟩))
    · exact .inr (.inl ⟨h, hs, by simp [hr, hq]⟩)
  · exact .inl ⟨h, by simp [hr]⟩

/-- What POP's increment sees: the loaded byte when the destination is R7, else the stack pointer. -/
theorem sp_loaded (r : Byte) (h : r.toNat < 8) (v : Byte) :
    (s.setReg ⟨r.toNat, h⟩ v).sp = if r = 7 then v else s.sp := by
  have hiff : ((⟨r.toNat, h⟩ : RegIdx) = spIndex) ↔ r = 7 := by
    simp only [spIndex, Fin.ext_iff]
    exact ⟨fun e => BitVec.eq_of_toNat_eq (by simpa using e), fun e => by simp [e]⟩
  rw [State.sp_setReg]
  simp only [hiff]

theorem execPop_cases (r : Byte) :
    (7 < r.toNat ∧ execPop r s = .next (s.raise (outOfRange s .reg r.toNat))) ∨
    (r.toNat < 8 ∧ (if r = 7 then s.memRead s.sp else s.sp) = 255 ∧
      execPop r s = .next (s.raise (outOfRange s .mem 256))) ∨
    (r.toNat < 8 ∧ (if r = 7 then s.memRead s.sp else s.sp) ≠ 255 ∧ 255 < s.pc.toNat + 2 ∧
      execPop r s = .next (s.raise (outOfRange s .pc ((s.pc.toNat + 2 : Nat) : Int)))) ∨
    (∃ h : r.toNat < 8, (if r = 7 then s.memRead s.sp else s.sp) ≠ 255 ∧ s.pc.toNat + 2 ≤ 255 ∧
      execPop r s = .next ((((s.setReg ⟨r.toNat, h⟩ (s.memRead s.sp)).setSp
        ((if r = 7 then s.memRead s.sp else s.sp) + 1))).setPc (s.pc + 2))) := by
  unfold execPop
  rcases reg_cases s r with ⟨h, hr⟩ | ⟨h, hr⟩
  · have hl := sp_loaded s r h (s.memRead s.sp)
    rcases popIncrement_cases s (if r = 7 then s.memRead s.sp else s.sp) with ⟨hs, hq⟩ | ⟨hs, hq⟩
    · rcases advance_cases s 2 with ⟨hp, ha⟩ | ⟨hp, ha⟩
      · exact .inr (.inr (.inr ⟨h, hs, hp, by simp only [hr, check_ok_bind, hl, hq, ha]; simp⟩))
      · exact .inr (.inr (.inl ⟨h, hs, hp, by simp only [hr, check_ok_bind, hl, hq, ha]; simp⟩))
    · exact .inr (.inl ⟨h, hs, by simp only [hr, check_ok_bind, hl, hq]; simp⟩)
  · exact .inl ⟨h, by simp [hr]⟩

theorem execCall_cases (r : Byte) :
    (7 < r.toNat ∧ execCall r s = .next (s.raise (outOfRange s .reg r.toNat))) ∨
    (r.toNat < 8 ∧ s.sp = 0 ∧ execCall r s = .next (s.raise (outOfRange s .mem (-1)))) ∨
    (r.toNat < 8 ∧ s.sp ≠ 0 ∧ 255 < s.pc.toNat + 2 ∧
      execCall r s = .next (s.raise (outOfRange s .pc ((s.pc.toNat + 2 : Nat) : Int)))) ∨
    (∃ h : r.toNat < 8, s.sp ≠ 0 ∧ s.pc.toNat + 2 ≤ 255 ∧
      execCall r s = .next ((push s (s.sp - 1) fun _ => s.pc + 2).setPc
        ((s.setSp (s.sp - 1)).getReg ⟨r.toNat, h⟩))) := by
  unfold execCall
  rcases reg_cases s r with ⟨h, hr⟩ | ⟨h, hr⟩
  · rcases pushAddress_cases s with ⟨hs, hq⟩ | ⟨hs, hq⟩
    · rcases advance_cases s 2 with ⟨hp, ha⟩ | ⟨hp, ha⟩
      · exact .inr (.inr (.inr ⟨h, hs, hp, by simp [hr, hq, ha]⟩))
      · exact .inr (.inr (.inl ⟨h, hs, hp, by simp [hr, hq, ha]⟩))
    · exact .inr (.inl ⟨h, hs, by simp [hr, hq]⟩)
  · exact .inl ⟨h, by simp [hr]⟩

theorem execRet_cases :
    (s.sp = 255 ∧ execRet s = .next (s.raise (outOfRange s .mem 256))) ∨
    (s.sp ≠ 255 ∧ execRet s = .next ((s.setSp (s.sp + 1)).setPc (s.memRead s.sp))) := by
  unfold execRet
  rcases popIncrement_cases s s.sp with ⟨hs, hq⟩ | ⟨hs, hq⟩
  · exact .inr ⟨hs, by simp [hq]⟩
  · exact .inl ⟨hs, by simp [hq]⟩

theorem execJmp_cases (r : Byte) :
    (7 < r.toNat ∧ execJmp r s = .next (s.raise (outOfRange s .reg r.toNat))) ∨
    (∃ h : r.toNat < 8, execJmp r s = .next (s.setPc (s.getReg ⟨r.toNat, h⟩))) := by
  unfold execJmp
  rcases reg_cases s r with ⟨h, hr⟩ | ⟨h, hr⟩
  · exact .inr ⟨h, by simp [hr]⟩
  · exact .inl ⟨h, by simp [hr]⟩

theorem branchCycle_cases (taken : Bool) (r : Byte) :
    (7 < r.toNat ∧ branchCycle taken r s = .next (s.raise (outOfRange s .reg r.toNat))) ∨
    (∃ h : r.toNat < 8, taken = true ∧
      branchCycle taken r s = .next (s.setPc (s.getReg ⟨r.toNat, h⟩))) ∨
    (r.toNat < 8 ∧ taken = false ∧ 255 < s.pc.toNat + 2 ∧
      branchCycle taken r s = .next (s.raise (outOfRange s .pc ((s.pc.toNat + 2 : Nat) : Int)))) ∨
    (r.toNat < 8 ∧ taken = false ∧ s.pc.toNat + 2 ≤ 255 ∧
      branchCycle taken r s = .next (s.setPc (s.pc + 2))) := by
  unfold branchCycle
  rcases reg_cases s r with ⟨h, hr⟩ | ⟨h, hr⟩
  · cases taken with
    | true => exact .inr (.inl ⟨h, rfl, by simp [hr]⟩)
    | false =>
      rcases advance_cases s 2 with ⟨hp, ha⟩ | ⟨hp, ha⟩
      · exact .inr (.inr (.inr ⟨h, rfl, hp, by simp [hr, ha]⟩))
      · exact .inr (.inr (.inl ⟨h, rfl, hp, by simp [hr, ha]⟩))
  · exact .inl ⟨h, by simp [hr]⟩

theorem execHlt_eq : execHlt s = .next s.halt := rfl

/-- JEQ's condition on the whole of FL. -/
theorem takenIfEqual_iff (f : Flag) : takenIfEqual f = true ↔ f = 1 := by simp [takenIfEqual]

/-- JNE's condition on the whole of FL; FL is one bit, so it is the complement of JEQ's. -/
theorem takenIfNotEqual_eq (f : Flag) : takenIfNotEqual f = !takenIfEqual f := by
  revert f
  decide

/-! ### All instructions at once -/

/-- What an instruction may raise in the cycle that starts in `s`, and when. -/
inductive Raises (s : State) : Instr → Raise → Prop where
  | operand {i : Instr} {v : Byte} (hv : v ∈ i.regOperands) (h : 7 < v.toNat) :
      Raises s i (outOfRange s .reg v.toNat)
  | push {r : Byte} (h : s.sp = 0) : Raises s (.push r) (outOfRange s .mem (-1))
  | call {r : Byte} (h : s.sp = 0) : Raises s (.call r) (outOfRange s .mem (-1))
  | pop {r : Byte} (h : (if r = 7 then s.memRead s.sp else s.sp) = 255) :
      Raises s (.pop r) (outOfRange s .mem 256)
  | ret (h : s.sp = 255) : Raises s .ret (outOfRange s .mem 256)
  | ldi {r v : Byte} (h : 255 < s.pc.toNat + 3) :
      Raises s (.ldi r v) (outOfRange s .pc ((s.pc.toNat + 3 : Nat) : Int))
  | add {a b : Byte} (h : 255 < s.pc.toNat + 3) :
      Raises s (.add a b) (outOfRange s .pc ((s.pc.toNat + 3 : Nat) : Int))
  | mul {a b : Byte} (h : 255 < s.pc.toNat + 3) :
      Raises s (.mul a b) (outOfRange s .pc ((s.pc.toNat + 3 : Nat) : Int))
  | cmp {a b : Byte} (h : 255 < s.pc.toNat + 3) :
      Raises s (.cmp a b) (outOfRange s .pc ((s.pc.toNat + 3 : Nat) : Int))
  /-- Never after a fetch, which leaves `pc` at most 253 (log 6). -/
  | beyondFetch {i : Instr} (h : 255 < s.pc.toNat + 2) :
      Raises s i (outOfRange s .pc ((s.pc.toNat + 2 : Nat) : Int))

/-- What an instruction leaves when no check raises. -/
inductive Completes (s : State) : Instr → State → Prop where
  | ldi {r v : Byte} (h : r.toNat < 8) (hp : s.pc.toNat + 3 ≤ 255) :
      Completes s (.ldi r v) ((s.setReg ⟨r.toNat, h⟩ v).setPc (s.pc + 3))
  | prn {r : Byte} (h : r.toNat < 8) (hp : s.pc.toNat + 2 ≤ 255) :
      Completes s (.prn r) ((s.emit (s.getReg ⟨r.toNat, h⟩).toNat).setPc (s.pc + 2))
  | add {a b : Byte} (ha : a.toNat < 8) (hb : b.toNat < 8) (hp : s.pc.toNat + 3 ≤ 255) :
      Completes s (.add a b) ((s.setReg ⟨a.toNat, ha⟩
        (BitVec.ofNat 8 ((s.getReg ⟨a.toNat, ha⟩).toNat + (s.getReg ⟨b.toNat, hb⟩).toNat))).setPc (s.pc + 3))
  | mul {a b : Byte} (ha : a.toNat < 8) (hb : b.toNat < 8) (hp : s.pc.toNat + 3 ≤ 255) :
      Completes s (.mul a b) ((s.setReg ⟨a.toNat, ha⟩
        (BitVec.ofNat 8 ((s.getReg ⟨a.toNat, ha⟩).toNat * (s.getReg ⟨b.toNat, hb⟩).toNat))).setPc (s.pc + 3))
  | cmp {a b : Byte} (ha : a.toNat < 8) (hb : b.toNat < 8) (hp : s.pc.toNat + 3 ≤ 255) :
      Completes s (.cmp a b)
        ((s.setFl (equalFlag (s.getReg ⟨a.toNat, ha⟩) (s.getReg ⟨b.toNat, hb⟩))).setPc (s.pc + 3))
  | push {r : Byte} (h : r.toNat < 8) (hs : s.sp ≠ 0) (hp : s.pc.toNat + 2 ≤ 255) :
      Completes s (.push r)
        ((Machine.push s (s.sp - 1) fun t => t.getReg ⟨r.toNat, h⟩).setPc (s.pc + 2))
  | pop {r : Byte} (h : r.toNat < 8) (hs : (if r = 7 then s.memRead s.sp else s.sp) ≠ 255)
      (hp : s.pc.toNat + 2 ≤ 255) :
      Completes s (.pop r) (((s.setReg ⟨r.toNat, h⟩ (s.memRead s.sp)).setSp
        ((if r = 7 then s.memRead s.sp else s.sp) + 1)).setPc (s.pc + 2))
  | call {r : Byte} (h : r.toNat < 8) (hs : s.sp ≠ 0) (hp : s.pc.toNat + 2 ≤ 255) :
      Completes s (.call r) ((Machine.push s (s.sp - 1) fun _ => s.pc + 2).setPc
        ((s.setSp (s.sp - 1)).getReg ⟨r.toNat, h⟩))
  | ret (hs : s.sp ≠ 255) : Completes s .ret ((s.setSp (s.sp + 1)).setPc (s.memRead s.sp))
  | jmp {r : Byte} (h : r.toNat < 8) : Completes s (.jmp r) (s.setPc (s.getReg ⟨r.toNat, h⟩))
  | jeqTaken {r : Byte} (h : r.toNat < 8) (hf : s.fl = 1) :
      Completes s (.jeq r) (s.setPc (s.getReg ⟨r.toNat, h⟩))
  | jeqNotTaken {r : Byte} (h : r.toNat < 8) (hf : s.fl = 0) (hp : s.pc.toNat + 2 ≤ 255) :
      Completes s (.jeq r) (s.setPc (s.pc + 2))
  | jneTaken {r : Byte} (h : r.toNat < 8) (hf : s.fl = 0) :
      Completes s (.jne r) (s.setPc (s.getReg ⟨r.toNat, h⟩))
  | jneNotTaken {r : Byte} (h : r.toNat < 8) (hf : s.fl = 1) (hp : s.pc.toNat + 2 ≤ 255) :
      Completes s (.jne r) (s.setPc (s.pc + 2))
  | hlt : Completes s .hlt s.halt

theorem flag_cases (f : Flag) : f = 0 ∨ f = 1 := by
  revert f
  decide

/-- Every outcome of `exec`: it takes an exception that the instruction may raise, or it completes. -/
theorem exec_outcome (i : Instr) :
    (∃ r, Raises s i r ∧ exec i s = .next (s.raise r)) ∨ (∃ t, Completes s i t ∧ exec i s = .next t) := by
  cases i with
  | ldi r v =>
    rcases execLdi_cases s r v with ⟨h, he⟩ | ⟨_, hp, he⟩ | ⟨h, hp, he⟩
    · exact .inl ⟨_, .operand (by simp [Instr.regOperands]) h, he⟩
    · exact .inl ⟨_, .ldi hp, he⟩
    · exact .inr ⟨_, .ldi h hp, he⟩
  | prn r =>
    rcases execPrn_cases s r with ⟨h, he⟩ | ⟨_, hp, he⟩ | ⟨h, hp, he⟩
    · exact .inl ⟨_, .operand (by simp [Instr.regOperands]) h, he⟩
    · exact .inl ⟨_, .beyondFetch hp, he⟩
    · exact .inr ⟨_, .prn h hp, he⟩
  | add a b =>
    rcases aluCycle_cases s .add a b with ⟨h, he⟩ | ⟨_, h, he⟩ | ⟨_, _, hp, he⟩ | ⟨ha, hb, hp, he⟩
    · exact .inl ⟨_, .operand (by simp [Instr.regOperands]) h, he⟩
    · exact .inl ⟨_, .operand (by simp [Instr.regOperands]) h, he⟩
    · exact .inl ⟨_, .add hp, he⟩
    · exact .inr ⟨_, .add ha hb hp, he⟩
  | mul a b =>
    rcases aluCycle_cases s .mul a b with ⟨h, he⟩ | ⟨_, h, he⟩ | ⟨_, _, hp, he⟩ | ⟨ha, hb, hp, he⟩
    · exact .inl ⟨_, .operand (by simp [Instr.regOperands]) h, he⟩
    · exact .inl ⟨_, .operand (by simp [Instr.regOperands]) h, he⟩
    · exact .inl ⟨_, .mul hp, he⟩
    · exact .inr ⟨_, .mul ha hb hp, he⟩
  | cmp a b =>
    rcases aluCycle_cases s .cmp a b with ⟨h, he⟩ | ⟨_, h, he⟩ | ⟨_, _, hp, he⟩ | ⟨ha, hb, hp, he⟩
    · exact .inl ⟨_, .operand (by simp [Instr.regOperands]) h, he⟩
    · exact .inl ⟨_, .operand (by simp [Instr.regOperands]) h, he⟩
    · exact .inl ⟨_, .cmp hp, he⟩
    · exact .inr ⟨_, .cmp ha hb hp, he⟩
  | push r =>
    rcases execPush_cases s r with ⟨h, he⟩ | ⟨_, hs, he⟩ | ⟨_, _, hp, he⟩ | ⟨h, hs, hp, he⟩
    · exact .inl ⟨_, .operand (by simp [Instr.regOperands]) h, he⟩
    · exact .inl ⟨_, .push hs, he⟩
    · exact .inl ⟨_, .beyondFetch hp, he⟩
    · exact .inr ⟨_, .push h hs hp, he⟩
  | pop r =>
    rcases execPop_cases s r with ⟨h, he⟩ | ⟨_, hs, he⟩ | ⟨_, _, hp, he⟩ | ⟨h, hs, hp, he⟩
    · exact .inl ⟨_, .operand (by simp [Instr.regOperands]) h, he⟩
    · exact .inl ⟨_, .pop hs, he⟩
    · exact .inl ⟨_, .beyondFetch hp, he⟩
    · exact .inr ⟨_, .pop h hs hp, he⟩
  | call r =>
    rcases execCall_cases s r with ⟨h, he⟩ | ⟨_, hs, he⟩ | ⟨_, _, hp, he⟩ | ⟨h, hs, hp, he⟩
    · exact .inl ⟨_, .operand (by simp [Instr.regOperands]) h, he⟩
    · exact .inl ⟨_, .call hs, he⟩
    · exact .inl ⟨_, .beyondFetch hp, he⟩
    · exact .inr ⟨_, .call h hs hp, he⟩
  | ret =>
    rcases execRet_cases s with ⟨hs, he⟩ | ⟨hs, he⟩
    · exact .inl ⟨_, .ret hs, he⟩
    · exact .inr ⟨_, .ret hs, he⟩
  | jmp r =>
    rcases execJmp_cases s r with ⟨h, he⟩ | ⟨h, he⟩
    · exact .inl ⟨_, .operand (by simp [Instr.regOperands]) h, he⟩
    · exact .inr ⟨_, .jmp h, he⟩
  | jeq r =>
    rcases branchCycle_cases s (takenIfEqual s.fl) r with
      ⟨h, he⟩ | ⟨h, hf, he⟩ | ⟨_, _, hp, he⟩ | ⟨h, hf, hp, he⟩
    · exact .inl ⟨_, .operand (by simp [Instr.regOperands]) h, he⟩
    · exact .inr ⟨_, .jeqTaken h ((takenIfEqual_iff _).mp hf), he⟩
    · exact .inl ⟨_, .beyondFetch hp, he⟩
    · refine .inr ⟨_, .jeqNotTaken h ?_ hp, he⟩
      rcases flag_cases s.fl with h0 | h1
      · exact h0
      · rw [(takenIfEqual_iff _).mpr h1] at hf; cases hf
  | jne r =>
    rcases branchCycle_cases s (takenIfNotEqual s.fl) r with
      ⟨h, he⟩ | ⟨h, hf, he⟩ | ⟨_, _, hp, he⟩ | ⟨h, hf, hp, he⟩
    · exact .inl ⟨_, .operand (by simp [Instr.regOperands]) h, he⟩
    · exact .inr ⟨_, .jneTaken h (by simpa [takenIfNotEqual] using hf), he⟩
    · exact .inl ⟨_, .beyondFetch hp, he⟩
    · refine .inr ⟨_, .jneNotTaken h ?_ hp, he⟩
      rcases flag_cases s.fl with h0 | h1
      · simp [h0, takenIfNotEqual] at hf
      · exact h1
  | hlt => exact .inr ⟨_, .hlt, rfl⟩

/-- The inversion of `exec`: if it answers `next t`, then `t` is an exception taken or a completion. -/
theorem exec_next_cases {s t : State} {i : Instr} (h : exec i s = .next t) :
    (∃ r, Raises s i r ∧ t = s.raise r) ∨ Completes s i t := by
  rcases exec_outcome s i with ⟨r, hr, he⟩ | ⟨u, hc, he⟩
  · exact .inl ⟨r, hr, Host.Outcome.next.inj (h.symm.trans he)⟩
  · exact .inr (Host.Outcome.next.inj (h.symm.trans he) ▸ hc)

end Sys2Proof.Machine
end

