-- ==== Sys2Proof/Laws/Memory.lean ====
section
/-! SUPPORT. The laws of memory: read after write, and that every operation keeps the canonical form. -/

namespace Sys2Proof.Machine

@[simp] theorem Memory.read_nil (b : Nat) : Memory.read [] b = Memory.unlisted := rfl

theorem Memory.wfFrom_cons {lo a : Nat} {v : Byte} {rest : Memory} :
    Memory.wfFrom lo ((a, v) :: rest) = true ↔
      lo ≤ a ∧ a < 256 ∧ v ≠ Memory.unlisted ∧ Memory.wfFrom (a + 1) rest = true := by
  simp [Memory.wfFrom, and_assoc]

theorem Memory.wfFrom_mono {lo lo' : Nat} {m : Memory} (h : lo' ≤ lo) (hm : Memory.wfFrom lo m = true) :
    Memory.wfFrom lo' m = true := by
  cases m with
  | nil => rfl
  | cons c rest =>
    obtain ⟨a, v⟩ := c
    rw [Memory.wfFrom_cons] at hm ⊢
    exact ⟨by omega, hm.2⟩

/-- A cell below every listed address reads as the unlisted value. -/
theorem Memory.read_below {lo b : Nat} {m : Memory} (hm : Memory.wfFrom lo m = true) (hb : b < lo) :
    m.read b = Memory.unlisted := by
  induction m generalizing lo with
  | nil => rfl
  | cons c rest ih =>
    obtain ⟨a, v⟩ := c
    rw [Memory.wfFrom_cons] at hm
    have hne : a ≠ b := by omega
    simpa [Memory.read, hne] using ih hm.2.2.2 (by omega)

theorem Memory.wfFrom_write {lo a : Nat} {v : Byte} {m : Memory} (hm : Memory.wfFrom lo m = true)
    (hlo : lo ≤ a) (ha : a < 256) : Memory.wfFrom lo (m.write a v) = true := by
  induction m generalizing lo with
  | nil => by_cases hv : v = Memory.unlisted <;> simp [Memory.write, Memory.wfFrom, hv, hlo, ha]
  | cons c rest ih =>
    obtain ⟨b, w⟩ := c
    have h := Memory.wfFrom_cons.mp hm
    unfold Memory.write
    split_ifs with h1 h2 h2 h3
    · exact hm
    · exact Memory.wfFrom_cons.mpr ⟨hlo, ha, h2, Memory.wfFrom_cons.mpr ⟨h1, h.2⟩⟩
    · exact Memory.wfFrom_mono (by omega) h.2.2.2
    · exact Memory.wfFrom_cons.mpr ⟨hlo, ha, h3, h2 ▸ h.2.2.2⟩
    · exact Memory.wfFrom_cons.mpr ⟨h.1, h.2.1, h.2.2.1, ih h.2.2.2 (by omega)⟩

/-- A write inside the address space keeps the canonical form. -/
theorem Memory.wf_write {m : Memory} (hm : m.wf = true) {a : Nat} (ha : a < 256) (v : Byte) :
    (m.write a v).wf = true := Memory.wfFrom_write hm (Nat.zero_le a) ha

theorem Memory.read_write_from {lo : Nat} {m : Memory} (hm : Memory.wfFrom lo m = true) (a : Nat)
    (v : Byte) (b : Nat) : (m.write a v).read b = if a = b then v else m.read b := by
  induction m generalizing lo with
  | nil =>
    by_cases hv : v = Memory.unlisted <;> by_cases hab : a = b <;> simp [Memory.write, Memory.read, hv, hab]
  | cons c rest ih =>
    obtain ⟨d, w⟩ := c
    have h := Memory.wfFrom_cons.mp hm
    have hrest : ∀ e, e ≤ d → Memory.read rest e = Memory.unlisted := fun e he =>
      Memory.read_below h.2.2.2 (by omega)
    rcases Nat.lt_trichotomy a d with hlt | heq | hgt
    · by_cases hv : v = Memory.unlisted <;> by_cases hab : a = b
      · subst hab
        simp [Memory.write, Memory.read, hlt, hv, hrest a (by omega), show d ≠ a by omega]
      · simp [Memory.write, Memory.read, hlt, hv, hab]
      · subst hab
        simp [Memory.write, Memory.read, hlt, hv]
      · simp [Memory.write, Memory.read, hlt, hv, hab]
    · subst heq
      by_cases hv : v = Memory.unlisted <;> by_cases hab : a = b
      · subst hab
        simp [Memory.write, hv, hrest a (Nat.le_refl a)]
      all_goals simp [Memory.write, Memory.read, hv, hab]
    · have hnd : ¬ a < d := by omega
      have hne : a ≠ d := by omega
      by_cases hdb : d = b
      · subst hdb
        simp [Memory.write, Memory.read, hnd, hne]
      · simp [Memory.write, Memory.read, hnd, hne, hdb, ih h.2.2.2]

/-- A read after a write: the written cell gives the value written, every other cell is left alone. -/
theorem Memory.read_write {m : Memory} (hm : m.wf = true) (a : Nat) (v : Byte) (b : Nat) :
    (m.write a v).read b = if a = b then v else m.read b := Memory.read_write_from hm a v b

theorem Memory.read_write_self {m : Memory} (hm : m.wf = true) (a : Nat) (v : Byte) :
    (m.write a v).read a = v := by simp [Memory.read_write hm]

/-- A write leaves every other cell alone, in any memory, canonical or not. -/
theorem Memory.read_write_of_ne (m : Memory) {a b : Nat} (v : Byte) (h : b ≠ a) :
    (m.write a v).read b = m.read b := by
  induction m with
  | nil => by_cases hv : v = Memory.unlisted <;> simp [Memory.write, Memory.read, hv, h.symm]
  | cons c rest ih =>
    obtain ⟨d, w⟩ := c
    unfold Memory.write
    split_ifs with h1 h2 h2 h3
    · rfl
    · simp [Memory.read, h.symm]
    · simp [Memory.read, show d ≠ b by omega]
    · simp [Memory.read, h.symm, show d ≠ b by omega]
    · simp [Memory.read, ih]

theorem Memory.eq_of_read_from {lo : Nat} {m m' : Memory} (hm : Memory.wfFrom lo m = true)
    (hm' : Memory.wfFrom lo m' = true) (h : ∀ a, m.read a = m'.read a) : m = m' := by
  induction m generalizing lo m' with
  | nil =>
    cases m' with
    | nil => rfl
    | cons c rest =>
      have hc := Memory.wfFrom_cons.mp hm'
      exact absurd (by simpa [Memory.read] using (h c.1).symm) hc.2.2.1
  | cons c rest ih =>
    obtain ⟨a, v⟩ := c
    have hc := Memory.wfFrom_cons.mp hm
    cases m' with
    | nil => exact absurd (by simpa [Memory.read] using h a) hc.2.2.1
    | cons c' rest' =>
      obtain ⟨a', v'⟩ := c'
      have hc' := Memory.wfFrom_cons.mp hm'
      have hra : ∀ e, e ≤ a → Memory.read rest e = Memory.unlisted := fun e he =>
        Memory.read_below hc.2.2.2 (by omega)
      have hra' : ∀ e, e ≤ a' → Memory.read rest' e = Memory.unlisted := fun e he =>
        Memory.read_below hc'.2.2.2 (by omega)
      have haa : a = a' := by
        rcases Nat.lt_trichotomy a a' with hl | he | hg
        · have := h a
          simp only [Memory.read, if_true, if_neg (show a' ≠ a by omega), hra' a (by omega)] at this
          exact absurd this hc.2.2.1
        · exact he
        · have := h a'
          simp only [Memory.read, if_true, if_neg (show a ≠ a' by omega), hra a' (by omega)] at this
          exact absurd this.symm hc'.2.2.1
      subst haa
      have hv : v = v' := by simpa [Memory.read] using h a
      subst hv
      rw [ih hc.2.2.2 hc'.2.2.2 fun e => ?_]
      by_cases hae : a = e
      · subst hae
        rw [hra a (Nat.le_refl a), hra' a (Nat.le_refl a)]
      · simpa [Memory.read, hae] using h e

/-- The form is canonical: memories that read the same everywhere are equal data. -/
theorem Memory.eq_of_read {m m' : Memory} (hm : m.wf = true) (hm' : m'.wf = true)
    (h : ∀ a, m.read a = m'.read a) : m = m' := Memory.eq_of_read_from hm hm' h

theorem Memory.wf_loadFrom {m : Memory} (hm : m.wf = true) {a : Nat} {image : List Byte}
    (h : a + image.length ≤ 256) : (m.loadFrom a image).wf = true := by
  induction image generalizing m a with
  | nil => exact hm
  | cons b rest ih =>
    simp only [List.length_cons] at h
    exact ih (Memory.wf_write hm (by omega) b) (by omega)

/-- What the loader's writes leave in memory: the image's bytes where it lies, the old bytes elsewhere. -/
theorem Memory.read_loadFrom {m : Memory} (hm : m.wf = true) {a : Nat} {image : List Byte}
    (h : a + image.length ≤ 256) (e : Nat) :
    (m.loadFrom a image).read e =
      if a ≤ e ∧ e < a + image.length then image.getD (e - a) 0 else m.read e := by
  induction image generalizing m a with
  | nil => simp [Memory.loadFrom, show ¬ (a ≤ e ∧ e < a) by omega]
  | cons b rest ih =>
    simp only [List.length_cons] at h ⊢
    rw [Memory.loadFrom, ih (Memory.wf_write hm (by omega) b) (by omega), Memory.read_write hm]
    rcases Nat.lt_trichotomy e a with hlt | heq | hgt
    · simp [show ¬ (a + 1 ≤ e) by omega, show ¬ (a ≤ e) by omega, show a ≠ e by omega]
    · subst heq
      simp
    · obtain ⟨k, rfl⟩ : ∃ k, e = a + 1 + k := ⟨e - (a + 1), by omega⟩
      have hk : a + 1 + k - a = k + 1 := by omega
      have hk' : a + 1 + k - (a + 1) = k := by omega
      simp only [hk, hk', List.getD_cons_succ, show a ≠ a + 1 + k by omega, if_false,
        show a ≤ a + 1 + k by omega, Nat.le_add_right, true_and]
      simp only [show a + 1 + k < a + 1 + rest.length ↔ a + 1 + k < a + (rest.length + 1) by omega]

end Sys2Proof.Machine
end

