-- ==== Sys2Proof/Laws/Step.lean ====
section
/-! SUPPORT. What one step can do, said once, and the induction over runs. -/

namespace Sys2Proof.Machine

/-- The outcomes of one step. -/
theorem stepWith_cases (opc : OpcodeMap) (s : State) :
    (s.run = .halted ∧ stepWith opc s = .next s) ∨
    (s.run = .running ∧ 253 < s.pc.toNat ∧ stepWith opc s = .next (s.raise fetchWindowFault)) ∨
    (s.run = .running ∧ s.pc.toNat ≤ 253 ∧ (∀ m, opc m ≠ s.b0) ∧
      stepWith opc s = .next (s.raise (unrecognizedOpcode s.b0))) ∨
    (s.run = .running ∧ s.pc.toNat ≤ 253 ∧ ∃ i,
      decodeWindow opc s.b0 (s.mem.read (s.pc.toNat + 1)) (s.mem.read (s.pc.toNat + 2)) = .ok i ∧
      stepWith opc s = exec i s) := by
  cases hr : s.run with
  | halted => exact .inl ⟨rfl, by simp [stepWith, hr, haltedStep]⟩
  | running =>
    refine .inr ?_
    by_cases hp : 253 < s.pc.toNat
    · exact .inl ⟨rfl, hp, by simp [stepWith, hr, fetch, hp]⟩
    · refine .inr ?_
      cases hd : decodeWindow opc s.b0 (s.mem.read (s.pc.toNat + 1)) (s.mem.read (s.pc.toNat + 2)) with
      | error e =>
        refine .inl ⟨rfl, by omega, ?_, ?_⟩
        · apply recognise_none_iff.mp
          unfold decodeWindow at hd
          cases hq : recognise opc s.b0 with
          | none => rfl
          | some m => simp [hq] at hd
        · simp only [State.b0, State.memRead] at hd
          simp [stepWith, hr, fetch, hp, hd, execUnrecognized, State.b0, State.memRead]
      | ok i =>
        refine .inr ⟨rfl, by omega, i, rfl, ?_⟩
        simp only [State.b0, State.memRead] at hd
        simp [stepWith, hr, fetch, hp, hd]

/-- A property that every step keeps holds after any number of steps. -/
theorem run_induction {P : State → Prop} (hstep : ∀ s t, P s → step s = .next t → P t) {k : Nat}
    {s t : State} (hs : P s) (h : Sys2Proof.core.run k s = .next t) : P t := by
  induction k generalizing s with
  | zero =>
    have he : s = t := Host.Outcome.next.inj h
    exact he ▸ hs
  | succ k ih =>
    simp only [Host.Core.run] at h
    cases hq : Sys2Proof.core.step s with
    | next u =>
      rw [hq] at h
      exact ih (hstep s u hs hq) h
    | fault r => rw [hq] at h; cases h
    | refused r => rw [hq] at h; cases h

end Sys2Proof.Machine
end

