-- ==== Sys2Proof/Tests/Slice0.lean ====
section
/-! SUPPORT. The model's own tests: the well-formedness smoke test, one word per constructor written out from
the spec's encodings, at most two single steps per instruction, and a witness for every statement that has
hypotheses. Expected results come from spec/95_test_vectors.md (the vector's name stands at each test) or, for
the encodings, from rules R80 and R90. -/

namespace Sys2Proof.Tests

open Sys2Proof
open Sys2Proof.Machine

/-! ### Well-formedness: each check refuses an ill-formed term -/

theorem test_wf_ldi : Instr.wf (.ldi 7 255) = true ∧ Instr.wf (.ldi 8 0) = false := by decide
theorem test_wf_prn : Instr.wf (.prn 7) = true ∧ Instr.wf (.prn 8) = false := by decide
theorem test_wf_add_b1 : Instr.wf (.add 7 0) = true ∧ Instr.wf (.add 8 0) = false := by decide
theorem test_wf_add_b2 : Instr.wf (.add 0 7) = true ∧ Instr.wf (.add 0 8) = false := by decide
theorem test_wf_mul_b1 : Instr.wf (.mul 7 7) = true ∧ Instr.wf (.mul 255 0) = false := by decide
theorem test_wf_mul_b2 : Instr.wf (.mul 0 9) = false := by decide
theorem test_wf_cmp_b1 : Instr.wf (.cmp 3 3) = true ∧ Instr.wf (.cmp 16 0) = false := by decide
theorem test_wf_cmp_b2 : Instr.wf (.cmp 0 128) = false := by decide
theorem test_wf_push : Instr.wf (.push 7) = true ∧ Instr.wf (.push 9) = false := by decide
theorem test_wf_pop : Instr.wf (.pop 7) = true ∧ Instr.wf (.pop 8) = false := by decide
theorem test_wf_call : Instr.wf (.call 7) = true ∧ Instr.wf (.call 8) = false := by decide
theorem test_wf_jmp : Instr.wf (.jmp 7) = true ∧ Instr.wf (.jmp 15) = false := by decide
theorem test_wf_jeq : Instr.wf (.jeq 7) = true ∧ Instr.wf (.jeq 200) = false := by decide
theorem test_wf_jne : Instr.wf (.jne 7) = true ∧ Instr.wf (.jne 8) = false := by decide
theorem test_wf_no_operands : Instr.wf .ret = true ∧ Instr.wf .hlt = true := by decide

/-! ### Decoding: a word per constructor, bit by bit from rules R80 and R90 (B2, B1, B0 from the left) -/

theorem test_decode_ldi : decodeTableWord 24 0b11111111_00000111_10000010 = some (.ldi 7 255) := by decide
theorem test_decode_prn : decodeTableWord 16 0b00000011_01000111 = some (.prn 3) := by decide
theorem test_decode_add : decodeTableWord 24 0b00000110_00000001_10100000 = some (.add 1 6) := by decide
theorem test_decode_mul : decodeTableWord 24 0b00000101_00000010_10100010 = some (.mul 2 5) := by decide
theorem test_decode_cmp : decodeTableWord 24 0b00000100_00000011_10100111 = some (.cmp 3 4) := by decide
theorem test_decode_push : decodeTableWord 16 0b00000001_01000101 = some (.push 1) := by decide
theorem test_decode_pop : decodeTableWord 16 0b00000010_01000110 = some (.pop 2) := by decide
theorem test_decode_call : decodeTableWord 16 0b00000011_01010000 = some (.call 3) := by decide
theorem test_decode_ret : decodeTableWord 8 0b00010001 = some .ret := by decide
theorem test_decode_jmp : decodeTableWord 16 0b00000100_01010100 = some (.jmp 4) := by decide
theorem test_decode_jeq : decodeTableWord 16 0b11001000_01010101 = some (.jeq 200) := by decide
theorem test_decode_jne : decodeTableWord 16 0b00000110_01010110 = some (.jne 6) := by decide
theorem test_decode_hlt : decodeTableWord 8 0b00000001 = some .hlt := by decide

/-- Rule R92: bytes of other LS-8 instructions, and one bit away from LDI, are unrecognised. -/
theorem test_decode_unrecognised :
    [0x00, 0x83, 0xA1, 0x65, 0x13].map (fun b => decodeTableWord 8 b) = [none, none, none, none, none] := by
  decide

/-! ### One step -/

/-- The registers R0, R1, R2, R3 and R7, the program counter and FL; memory is zero but for the three bytes
`b0 b1 b2` at `pc` (which must fit) and one stack cell. -/
def start (x : Vector Byte 8) (pc : Byte) (fl : Flag) (b0 b1 b2 : Byte) (cell : Nat × Byte) : State :=
  let s : State :=
    { State.reset with x := x, pc := pc, fl := fl, mem := Memory.write memReset cell.1 cell.2 }
  s.placeWindow ⟨b0, b1, b2⟩

/-- What a test looks at in a next state. -/
def after {α : Type} (o : Host.Outcome State Fault Refusal) (look : State → α) : Option α :=
  match o with
  | .next t => some (look t)
  | .fault _ => none
  | .refused _ => none

/-- What a test looks at after one step. -/
def seen {α : Type} (s : State) (look : State → α) : Option α := after (step s) look

/-- What a test saw is what the next state holds. -/
theorem next_of_after {α : Type} {o : Host.Outcome State Fault Refusal} {look : State → α} {v : α}
    (h : after o look = some v) : ∃ t, o = .next t ∧ look t = v := by
  unfold after at h
  split at h
  · exact ⟨_, rfl, Option.some.inj h⟩
  · cases h
  · cases h

/-- Every instruction answers a next state. -/
theorem next_of_exec (i : Instr) (s : State) : ∃ t, exec i s = .next t := by
  rcases exec_outcome s i with ⟨r, _, h⟩ | ⟨u, _, h⟩
  · exact ⟨_, h⟩
  · exact ⟨_, h⟩

/-- Registers with the values given for R0, R1 and R7 and 0 elsewhere. -/
def regs (r0 r1 r7 : Byte) : Vector Byte 8 := #v[r0, r1, 0, 0, 0, 0, 0, r7]

/-- VL2. -/
theorem test_step_ldi :
    seen (start (regs 0 0 0xF4) 0 0 0x82 7 0xFF (0xF3, 0)) (fun t => (t.getReg 7, t.pc)) = some (255, 3) := by
  decide
/-- VF5. -/
theorem test_step_ldi_at_253 :
    seen (start (regs 1 0 0xF4) 253 0 0x82 0 5 (0xF3, 0)) (fun t => (t.getReg 0, t.pc, t.fault)) =
      some (1, 253, some ⟨.outOfRangeAccess, 253, some 0x82, some .pc, some 256⟩) := by decide
/-- VL7, with 255 in R1. -/
theorem test_step_prn :
    seen { start (regs 0 255 0xF4) 4 0 0x47 1 0 (0xF3, 0) with out := [1] } (fun t => (t.out, t.pc)) =
      some ([1, 255], 6) := by decide
/-- VL9. -/
theorem test_step_prn_bad_register :
    seen (start (regs 0 0 0xF4) 4 0 0x47 8 0 (0xF3, 0)) (fun t => (t.out, t.fault)) =
      some ([], some ⟨.outOfRangeAccess, 4, some 0x47, some .reg, some 8⟩) := by decide
/-- VA5. -/
theorem test_step_add_wraps :
    seen (start (regs 200 100 0xF4) 0 1 0xA0 0 1 (0xF3, 0)) (fun t => (t.getReg 0, t.getReg 1, t.fl, t.pc)) =
      some (44, 100, 1, 3) := by decide
/-- VA28. -/
theorem test_step_add_checks_b1_first :
    seen (start (regs 0 0 0xF4) 0 0 0xA0 9 10 (0xF3, 0)) (fun t => t.fault) =
      some (some ⟨.outOfRangeAccess, 0, some 0xA0, some .reg, some 9⟩) := by decide
/-- VA18. -/
theorem test_step_mul_wraps :
    seen (start (regs 100 44 0xF4) 0 0 0xA2 0 1 (0xF3, 0)) (fun t => (t.getReg 0, t.getReg 1)) =
      some (48, 44) := by decide
/-- VA21. -/
theorem test_step_mul_squares :
    seen (start (regs 17 0 0xF4) 0 0 0xA2 0 0 (0xF3, 0)) (fun t => t.getReg 0) = some 33 := by decide
/-- VA23. -/
theorem test_step_cmp_overwrites :
    seen (start (regs 5 6 0xF4) 9 1 0xA7 0 1 (0xF3, 0)) (fun t => (t.fl, t.getReg 0, t.pc)) =
      some (0, 5, 12) := by decide
/-- VF8. -/
theorem test_step_cmp_at_253 :
    seen (start (regs 5 6 0xF4) 253 0 0xA7 0 0 (0xF3, 0)) (fun t => (t.fl, t.fault)) =
      some (0, some ⟨.outOfRangeAccess, 253, some 0xA7, some .pc, some 256⟩) := by decide
/-- VS4. -/
theorem test_step_push_r7 :
    seen (start (regs 0 0 0xF4) 0 0 0x45 7 0 (0xF3, 0)) (fun t => (t.getReg 7, t.memRead 0xF3)) =
      some (0xF3, 0xF3) := by decide
/-- VS3. -/
theorem test_step_push_at_zero :
    seen (start (regs 9 0 0) 20 0 0x45 0 0 (0xF3, 0)) (fun t => (t.getReg 7, t.memRead 255, t.fault)) =
      some (0, 0, some ⟨.outOfRangeAccess, 20, some 0x45, some .mem, some (-1)⟩) := by decide
/-- VS12. -/
theorem test_step_pop_r7_at_top :
    seen (start (regs 0 0 255) 0 0 0x46 7 0 (255, 7)) (fun t => (t.getReg 7, t.memRead 255, t.pc)) =
      some (8, 7, 2) := by decide
/-- VS11. -/
theorem test_step_pop_r7_loaded_top :
    seen (start (regs 0 0 0xF3) 0 0 0x46 7 0 (0xF3, 255)) (fun t => (t.getReg 7, t.fault)) =
      some (0xF3, some ⟨.outOfRangeAccess, 0, some 0x46, some .mem, some 256⟩) := by decide
/-- VC4. -/
theorem test_step_call_r7 :
    seen (start (regs 0 0 0xF4) 0 0 0x50 7 0 (0xF3, 0)) (fun t => (t.getReg 7, t.memRead 0xF3, t.pc)) =
      some (0xF3, 2, 0xF3) := by decide
/-- VC2. -/
theorem test_step_call_at_253 :
    seen (start (regs 0 0 0x80) 253 0 0x50 1 0 (0x10, 0)) (fun t => (t.getReg 7, t.memRead 0x7F, t.pc)) =
      some (0x7F, 255, 0) := by decide
/-- VC6. -/
theorem test_step_ret :
    seen (start (regs 0 0 0xF3) 14 0 0x11 0 0 (0xF3, 8)) (fun t => (t.pc, t.getReg 7, t.memRead 0xF3)) =
      some (8, 0xF4, 8) := by decide
/-- VC7. -/
theorem test_step_ret_at_top :
    seen (start (regs 0 0 255) 14 0 0x11 0 0 (255, 8)) (fun t => (t.pc, t.fault)) =
      some (14, some ⟨.outOfRangeAccess, 14, some 0x11, some .mem, some 256⟩) := by decide
/-- VC9, with the target in R1. -/
theorem test_step_jmp :
    seen (start (regs 0 12 0xF4) 20 0 0x54 1 0 (0xF3, 0)) (fun t => t.pc) = some 12 := by decide
/-- VC11. -/
theorem test_step_jmp_bad_register :
    seen (start (regs 0 0 0xF4) 20 0 0x54 15 0 (0xF3, 0)) (fun t => t.fault) =
      some (some ⟨.outOfRangeAccess, 20, some 0x54, some .reg, some 15⟩) := by decide
/-- VC12 and VC13, with the target in R1. -/
theorem test_step_jeq :
    [1, 0].map (fun fl => seen (start (regs 0 15 0xF4) 12 fl 0x55 1 0 (0xF3, 0)) fun t => t.pc) =
      [some 15, some 14] := by decide
/-- VC14. -/
theorem test_step_jeq_not_taken_bad_register :
    seen (start (regs 0 0 0xF4) 12 0 0x55 200 0 (0xF3, 0)) (fun t => t.fault) =
      some (some ⟨.outOfRangeAccess, 12, some 0x55, some .reg, some 200⟩) := by decide
/-- VC15 and VC16, with the target in R1. -/
theorem test_step_jne :
    [0, 1].map (fun fl => seen (start (regs 0 12 0xF4) 20 fl 0x56 1 0 (0xF3, 0)) fun t => t.pc) =
      [some 12, some 22] := by decide
/-- VF12. -/
theorem test_step_hlt :
    seen (start (regs 0 0 0xF4) 10 0 0x01 0xFF 0xFF (0xF3, 0)) (fun t => (t.run, t.fault, t.pc)) =
      some (.halted, none, 10) := by decide
/-- VF4: the window fault wins over the unrecognised opcode. -/
theorem test_step_window :
    seen { start (regs 0 0 0xF4) 0 0 0 0 0 (254, 0xFF) with pc := 254 } (fun t => (t.run, t.fault, t.pc)) =
      some (.halted, some ⟨.outOfRangeAccess, 254, none, some .mem, some 256⟩, 254) := by decide
/-- VF11: no partial decoding. -/
theorem test_step_unrecognised :
    seen (start (regs 0 0 0xF4) 10 0 0x83 0 1 (0xF3, 0)) (fun t => (t.run, t.fault, t.pc)) =
      some (.halted, some ⟨.unrecognizedOpcode, 10, some 0x83, none, none⟩, 10) := by decide
/-- VH2. -/
theorem test_step_halted :
    seen { start (regs 0 0 0xF4) 10 0 0x82 0 1 (0xF3, 0) with run := .halted } (fun t => (t.run, t.pc, t.x)) =
      some (.halted, 10, regs 0 0 0xF4) := by decide
/-- Rule R200. -/
theorem test_cause_codes :
    [Cause.unrecognizedOpcode, .outOfRangeAccess, .unsupportedOperation].map Cause.code = [1, 2, 3] := by decide
/-- Rule R39 on the states of VF12 and VF11. -/
theorem test_exit_status :
    seen (start (regs 0 0 0xF4) 10 0 0x01 0 0 (0xF3, 0)) State.exitStatus = some (some .success) ∧
    seen (start (regs 0 0 0xF4) 10 0 0x83 0 1 (0xF3, 0)) State.exitStatus = some (some .failure) ∧
    State.reset.exitStatus = none := by decide
/-- Rule R37 on the image of program P6: the bytes lie from address 0 and zeros follow. -/
theorem test_launch :
    ((launch [0x82, 7, 9, 0x82, 0, 1, 0x45, 0, 0]).map fun s =>
      (s.memRead 0, s.memRead 2, s.memRead 6, s.memRead 8, s.getReg 7, s.pc)) =
      some (0x82, 9, 0x45, 0, 0xF4, 0) := by decide
/-- The host's placement of a word at the reset state, and at a state whose `pc` leaves no room (log 7). -/
theorem test_withFetchWord :
    seen (State.reset.withFetchWord 24 0x080082) (fun t => (t.getReg 0, t.pc)) = some (8, 3) ∧
    seen (State.withFetchWord { State.reset with pc := 255, run := .halted } 8 0x01) (fun t => (t.run, t.pc)) =
      some (.halted, 0) := by decide

/-! ### Witnesses: concrete states and operands that meet the hypotheses of each statement -/

/-- A reset state with `pc`, the stack pointer and FL chosen. -/
def at' (pc sp : Byte) (fl : Flag) : State := { State.reset with x := regs 5 5 sp, pc := pc, fl := fl }

theorem witness_opcode_map : defaultOpc.Injective := by
  intro m m'
  cases m <;> cases m' <;> decide

theorem witness_LaunchIsResetWithTheImageFromAddressZero :
    (List.replicate 256 (1 : Byte)).length ≤ 256 ∧ 256 < (List.replicate 257 (1 : Byte)).length :=
  ⟨Nat.le_of_eq List.length_replicate, by rw [List.length_replicate]; omega⟩

theorem witness_LdiLoadsTheImmediate :
    7 < (8 : Byte).toNat ∧ ((7 : Byte).toNat < 8 ∧ (at' 253 0xF4 0).pc = 253) ∧
    ((7 : Byte).toNat < 8 ∧ (at' 252 0xF4 0).pc.toNat ≤ 252) := by decide

theorem witness_PrnEmitsTheRegister :
    7 < (8 : Byte).toNat ∧ ((7 : Byte).toNat < 8 ∧ (at' 253 0xF4 0).pc.toNat ≤ 253) := by decide

/-- Also for MulKeepsTheLowByteOfTheProduct and CmpWritesTheEqualityFlag, whose clauses have the same
hypotheses. -/
theorem witness_AddKeepsTheLowByteOfTheSum :
    7 < (8 : Byte).toNat ∧ ((7 : Byte).toNat < 8 ∧ 7 < (8 : Byte).toNat) ∧
    ((7 : Byte).toNat < 8 ∧ (0 : Byte).toNat < 8 ∧ (at' 253 0xF4 0).pc = 253) ∧
    ((7 : Byte).toNat < 8 ∧ (7 : Byte).toNat < 8 ∧ (at' 252 0xF4 0).pc.toNat ≤ 252) := by decide

theorem witness_MulKeepsTheLowByteOfTheProduct :
    7 < (255 : Byte).toNat ∧ ((0 : Byte).toNat < 8 ∧ 7 < (255 : Byte).toNat) ∧
    ((0 : Byte).toNat < 8 ∧ (7 : Byte).toNat < 8 ∧ (at' 253 0xF4 0).pc = 253) ∧
    ((0 : Byte).toNat < 8 ∧ (1 : Byte).toNat < 8 ∧ (at' 0 0xF4 0).pc.toNat ≤ 252) := by decide

theorem witness_CmpWritesTheEqualityFlag :
    7 < (8 : Byte).toNat ∧ ((7 : Byte).toNat < 8 ∧ 7 < (9 : Byte).toNat) ∧
    ((3 : Byte).toNat < 8 ∧ (3 : Byte).toNat < 8 ∧ (at' 253 0xF4 1).pc = 253) ∧
    ((3 : Byte).toNat < 8 ∧ (3 : Byte).toNat < 8 ∧ (at' 252 0xF4 1).pc.toNat ≤ 252) := by decide

theorem witness_PushDecrementsThenStores :
    7 < (8 : Byte).toNat ∧ ((7 : Byte).toNat < 8 ∧ (at' 0 0 0).x[7] = 0) ∧
    ((7 : Byte).toNat < 8 ∧ (at' 253 1 0).x[7] ≠ 0 ∧ (at' 253 1 0).pc.toNat ≤ 253) := by decide

/-- The stack cell read is 0 in the last clause and 255 in the one before it. -/
theorem witness_PopLoadsThenIncrements :
    7 < (8 : Byte).toNat ∧ ((6 : Byte).toNat < 7 ∧ (at' 0 255 0).x[7] = 255) ∧
    ((6 : Byte).toNat < 7 ∧ (at' 253 254 0).x[7] ≠ 255 ∧ (at' 253 254 0).pc.toNat ≤ 253) ∧
    (start (regs 0 0 0xF3) 0 0 0x46 7 0 (0xF3, 255)).mem.read
      (start (regs 0 0 0xF3) 0 0 0x46 7 0 (0xF3, 255)).x[7].toNat = 255 ∧
    ((at' 253 255 0).mem.read (at' 253 255 0).x[7].toNat ≠ 255 ∧ (at' 253 255 0).pc.toNat ≤ 253) := by decide

theorem witness_CallPushesTheReturnAddressAndJumps :
    7 < (8 : Byte).toNat ∧ ((7 : Byte).toNat < 8 ∧ (at' 0 0 0).x[7] = 0) ∧
    ((7 : Byte).toNat < 8 ∧ (at' 253 1 0).x[7] ≠ 0 ∧ (at' 253 1 0).pc.toNat ≤ 253) := by decide

theorem witness_RetPopsIntoThePc : (at' 0 255 0).x[7] = 255 ∧ (at' 0 254 0).x[7] ≠ 255 := by decide

theorem witness_JmpSetsThePc : 7 < (8 : Byte).toNat ∧ (7 : Byte).toNat < 8 := by decide

theorem witness_JeqJumpsWhenTheFlagIsOne :
    7 < (8 : Byte).toNat ∧ ((7 : Byte).toNat < 8 ∧ (at' 0 0xF4 1).fl = 1) ∧
    ((7 : Byte).toNat < 8 ∧ (at' 253 0xF4 0).fl ≠ 1 ∧ (at' 253 0xF4 0).pc.toNat ≤ 253) := by decide

theorem witness_JneJumpsWhenTheFlagIsZero :
    7 < (8 : Byte).toNat ∧ ((7 : Byte).toNat < 8 ∧ (at' 0 0xF4 0).fl = 0) ∧
    ((7 : Byte).toNat < 8 ∧ (at' 253 0xF4 1).fl ≠ 0 ∧ (at' 253 0xF4 1).pc.toNat ≤ 253) := by decide

theorem witness_DecodeOfEncodeIsTheInstruction : defaultOpc.Injective := witness_opcode_map

theorem witness_EncodeOfDecodeIsTheBytes : decode defaultOpc [0x82, 0, 8, 1] = .ok (.ldi 0 8, [1]) := rfl

/-- The window clauses at LDI's byte and at one bit from it; the cycle clauses are at `adding` and the reset
state, below. -/
theorem witness_DispatchIsWholeByteEquality :
    defaultOpc.Injective ∧ (0x82 : Byte) = defaultOpc .ldi ∧ (∀ m, (0x83 : Byte) ≠ defaultOpc m) ∧
    decodeWindow defaultOpc 0x82 0 8 = .ok (.ldi 0 8) :=
  ⟨witness_opcode_map, rfl, fun m => by cases m <;> decide, rfl⟩

theorem witness_UndeclaredOperandBytesAreIgnored :
    (decodeWindow defaultOpc 0x01 3 4 = .ok .hlt ∧ Instr.hlt.length = 1) ∧
    (decodeWindow defaultOpc 0x47 3 4 = .ok (.prn 3) ∧ (Instr.prn 3).length = 2) := ⟨⟨rfl, rfl⟩, rfl, rfl⟩

/-- A state about to run `ADD R0 R1` at address 253's lower neighbour. -/
def adding : State := start (regs 5 6 0xF4) 252 0 0xA0 0 1 (0xF3, 0)

theorem witness_DispatchIsWholeByteEquality_cycle :
    (adding.run = .running ∧ adding.pc.toNat ≤ 253 ∧ adding.mem.read adding.pc.toNat = defaultOpc .add) ∧
    (State.reset.run = .running ∧ State.reset.pc.toNat ≤ 253 ∧
      ∀ m, State.reset.mem.read State.reset.pc.toNat ≠ defaultOpc m) :=
  ⟨⟨rfl, by decide, rfl⟩, rfl, by decide, fun m => by cases m <;> decide⟩

theorem witness_StepRunsTheDecodedInstruction :
    adding.run = .running ∧ adding.pc.toNat ≤ 253 ∧
    decode defaultOpc [adding.mem.read adding.pc.toNat, adding.mem.read (adding.pc.toNat + 1),
      adding.mem.read (adding.pc.toNat + 2)] = .ok (.add 0 1, []) := ⟨rfl, by decide, rfl⟩

theorem witness_FetchReadsThreeBytesOrFaults :
    ((at' 254 0xF4 0).run = .running ∧ 253 < (at' 254 0xF4 0).pc.toNat) ∧
    ((at' 253 0xF4 0).run = .running ∧ (at' 253 0xF4 0).pc.toNat ≤ 253) := by decide

theorem witness_UnrecognizedOpcodeIsFatal :
    (at' 253 0xF4 0).run = .running ∧ (at' 253 0xF4 0).pc.toNat ≤ 253 ∧
    ∀ m, defaultOpc m ≠ (at' 253 0xF4 0).mem.read (at' 253 0xF4 0).pc.toNat :=
  ⟨rfl, by decide, fun m => by cases m <;> decide⟩

theorem witness_HaltedPerformsNoCycle : (State.reset.halt).run = .halted := rfl

/-- One witness per outcome: ADD goes on, HLT halts, a zero byte faults. -/
theorem witness_CycleContinuesHaltsOrFaultsPrecisely :
    (adding.run = .running ∧ ∃ t, stepWith defaultOpc adding = .next t ∧ t.run = .running) ∧
    (∃ t, stepWith defaultOpc (start (regs 0 0 0xF4) 253 0 1 0 0 (0xF3, 0)) = .next t ∧ t.run = .halted ∧
      t.fault = none) ∧
    (∃ t, stepWith defaultOpc State.reset = .next t ∧ t.run = .halted ∧ t.fault ≠ none) :=
  ⟨⟨rfl, _, rfl, rfl⟩, ⟨_, rfl, rfl, rfl⟩, ⟨_, rfl, rfl, by decide⟩⟩

/-- A POP at the top of memory: its site holds and its record is the listed one. -/
theorem witness_FaultsHappenExactlyAtTheListedSites :
    ∃ s t f, defaultOpc.Injective ∧ s.run = .running ∧ s.fault = none ∧ stepWith defaultOpc s = .next t ∧
      t.fault = some f ∧ FaultSite defaultOpc s f :=
  ⟨start (regs 0 0 255) 253 0 0x46 0 0 (0xF3, 0), _, _, witness_opcode_map, rfl, rfl, rfl, rfl,
    .popAtTop (by decide) (.inl ⟨rfl, by decide⟩) rfl⟩

/-- A PUSH with a bad register and R7 = 0: two checks fail and the register's is the first. -/
theorem witness_FirstFailingCheckIsTheOneRecorded :
    ∃ s t, s.run = .running ∧ s.fault = none ∧ stepWith defaultOpc s = .next t ∧ s.sp = 0 ∧
      (firstFault defaultOpc s).map (fun f => (f.kind, f.index)) = some (some .reg, some 9) :=
  ⟨start (regs 0 0 0) 10 0 0x45 9 0 (0xF3, 0), _, rfl, rfl, rfl, rfl, by decide⟩

theorem witness_UnsupportedOperationIsNeverRaised :
    ∃ t, stepWith defaultOpc State.reset = .next t ∧ State.reset.fault = none ∧ t.fault ≠ none :=
  ⟨_, rfl, rfl, by decide⟩

/-- Both clauses: a faulting LDI at 253, and ADD at 252. -/
theorem witness_PcAfterACycle :
    (∃ s t, s.run = .running ∧ s.fault = none ∧ stepWith defaultOpc s = .next t ∧ t.fault ≠ none) ∧
    (∃ t, adding.run = .running ∧ adding.fault = none ∧ stepWith defaultOpc adding = .next t ∧
      adding.pc.toNat ≤ 253 ∧
      decodeWindow defaultOpc (adding.mem.read adding.pc.toNat) (adding.mem.read (adding.pc.toNat + 1))
        (adding.mem.read (adding.pc.toNat + 2)) = .ok (.add 0 1) ∧
      t.fault = none) :=
  ⟨⟨start (regs 1 0 0xF4) 253 0 0x82 0 5 (0xF3, 0), _, rfl, rfl, rfl, by decide⟩,
    ⟨_, rfl, rfl, rfl, by decide, rfl, rfl⟩⟩

theorem witness_PlacedWordIsTheNextStepsInstruction :
    State.reset.mem.wf = true ∧ decodeTableWord 24 0x010082 = some (.ldi 0 1) := by decide

theorem witness_LdiAddMulFrame :
    (∃ t, exec (.ldi 7 1) adding = .next t) ∧ (∃ t, exec (.add 7 1) adding = .next t) ∧
    (∃ t, exec (.mul 7 8) adding = .next t) := ⟨⟨_, rfl⟩, ⟨_, rfl⟩, ⟨_, rfl⟩⟩

theorem witness_PrnCmpJumpHltFrame :
    (∃ t, exec (.prn 7) adding = .next t) ∧ (∃ t, exec (.cmp 0 7) adding = .next t) ∧
    (∃ t, exec (.jmp 7) adding = .next t) ∧ (∃ t, exec (.jeq 7) adding = .next t) ∧
    (∃ t, exec (.jne 8) adding = .next t) ∧ (∃ t, exec .hlt adding = .next t) :=
  ⟨⟨_, rfl⟩, ⟨_, rfl⟩, ⟨_, rfl⟩, ⟨_, rfl⟩, ⟨_, rfl⟩, ⟨_, rfl⟩⟩

/-- Both clauses about the address: R7 = 1 stores at 0, and R7 = 0 raises. -/
theorem witness_PushCallFrame :
    (∃ t, exec (.push 0) (at' 0 1 0) = .next t ∧ pushAddress (at' 0 1 0) = .ok 0) ∧
    (∃ t e, exec (.call 0) (at' 0 0 0) = .next t ∧ pushAddress (at' 0 0 0) = .error e) :=
  ⟨⟨_, rfl, rfl⟩, ⟨_, _, rfl, rfl⟩⟩

theorem witness_PopRetFrame :
    (∃ t, exec (.pop 7) (at' 0 254 0) = .next t) ∧ (∃ t, exec .ret (at' 0 255 0) = .next t) :=
  ⟨next_of_exec _ _, next_of_exec _ _⟩

/-- The last clause has both a register that is written without being read and one that is neither. -/
theorem witness_RegistersReadAndWritten :
    (∃ t, exec (.pop 3) (at' 0 0xF4 0) = .next t ∧ writesReg 2 (.pop 3) = false) ∧
    (readsReg (at' 0 0xF4 0).fl 5 (.jeq 5) = false ∧ writesReg 5 (.jeq 5) = false) ∧
    (readsReg (at' 0 0xF4 0).fl 3 (.pop 3) = false ∧ writesReg 3 (.pop 3) = true) :=
  ⟨⟨_, rfl, rfl⟩, ⟨rfl, rfl⟩, rfl, rfl⟩

theorem witness_EveryListedRegisterIsWrittenAndRead :
    (Instr.wf (.pop 7) = true ∧ writesReg 7 (.pop 7) = true) ∧
    (Instr.wf (.cmp 0 7) = true ∧ readsReg 0 7 (.cmp 0 7) = true ∧ ∀ a, Instr.cmp 0 7 ≠ .cmp a a) :=
  ⟨by decide, by decide, by decide, fun a h => by
    injection h with h0 h7
    exact absurd (h0.trans h7.symm) (by decide)⟩

theorem witness_FlagWrittenByCmpReadByJumps :
    (∃ t, exec (.add 0 1) adding = .next t ∧ ∀ a b, Instr.add 0 1 ≠ .cmp a b) ∧
    (∀ r, Instr.cmp 0 1 ≠ .jeq r) ∧ (∀ r, Instr.cmp 0 1 ≠ .jne r) :=
  ⟨⟨_, rfl, fun _ _ h => (by cases h)⟩, fun _ h => (by cases h), fun _ h => (by cases h)⟩

theorem witness_MemoryIsWrittenByPushAndCallOnly :
    ∃ t, stepWith defaultOpc adding = .next t ∧ adding.mem.read adding.pc.toNat ≠ defaultOpc .push ∧
      adding.mem.read adding.pc.toNat ≠ defaultOpc .call := ⟨_, rfl, by decide, by decide⟩

/-- A state about to run `PRN R1` at the last address that leaves room for a fetch. -/
def printing : State := start (regs 5 6 0xF4) 253 0 0x47 1 0 (0xF3, 0)

theorem witness_OutputIsAppendedByPrnOnly :
    ∃ t, stepWith defaultOpc printing = .next t ∧ t.out = [6] := by
  have h : seen printing State.out = some [6] := by decide
  exact next_of_after h

/-- Each clause at an end of memory: push from 1, pop from 254, POP R7 of a loaded 254, RET from 254. -/
theorem witness_StackPointerNeverWraps :
    (∃ t, exec (.push 0) (at' 0 1 0) = .next t ∧ t.fault = none) ∧
    (∃ t, exec (.pop 6) (at' 0 254 0) = .next t ∧ t.fault = none) ∧
    (∃ t, exec (.pop 7) (start (regs 0 0 255) 0 0 0x46 7 0 (255, 254)) = .next t ∧ t.fault = none) ∧
    (∃ t, exec .ret (at' 0 254 0) = .next t ∧ t.fault = none) :=
  ⟨next_of_after (look := State.fault) (by decide), next_of_after (look := State.fault) (by decide),
    next_of_after (look := State.fault) (by decide), next_of_after (look := State.fault) (by decide)⟩

/-- PUSH R1 with R7 = 9 writes cell 8; a later fetch at 8, 7 or 6 reads it as B0, B1 or B2. -/
theorem witness_StoresAreSeenByLaterFetches :
    ∃ t, exec (.push 1) (at' 6 9 0) = .next t ∧ (at' 6 9 0).mem.wf = true ∧ t.fault = none ∧
      pushAddress (at' 6 9 0) = .ok 8 ∧ t.pc.toNat = 8 ∧ ∃ w, fetch t = .ok w :=
  ⟨_, rfl, rfl, rfl, rfl, by decide, _, rfl⟩

theorem witness_StoresAreSeenByLaterFetches_call :
    ∃ t, exec (.call 1) (at' 6 9 0) = .next t ∧ t.fault = none ∧ pushAddress (at' 6 9 0) = .ok 8 ∧
      ∃ w, fetch t = .ok w := ⟨_, rfl, rfl, rfl, _, rfl⟩

theorem witness_PushThenPopRestores :
    (7 : Byte).toNat < 8 ∧ (at' 251 1 0).mem.wf = true ∧ (at' 251 1 0).getReg 7 ≠ 0 ∧
    (at' 251 1 0).pc.toNat ≤ 251 := by decide

theorem witness_CallThenRetReturns :
    (6 : Byte).toNat < 7 ∧ (at' 253 1 0).mem.wf = true ∧ (at' 253 1 0).getReg 7 ≠ 0 ∧
    (at' 253 1 0).pc.toNat ≤ 253 := by decide

/-- A later state that has the stack pointer and the return address back. -/
theorem witness_CallThenRetReturns_balanced :
    ∃ t u : State, exec (.call 0) (at' 3 0xF4 0) = .next t ∧ u.getReg 7 = t.getReg 7 ∧
      u.mem.read (u.getReg 7).toNat = (at' 3 0xF4 0).pc + 2 ∧ u.pc ≠ t.pc :=
  ⟨_, { at' 6 0xF3 0 with mem := [(0xF3, 5)] }, rfl, rfl, rfl, by decide⟩

theorem witness_AddMulCmpAreSymmetric :
    (0 : Byte).toNat < 8 ∧ (7 : Byte).toNat < 8 ∧ (0 : Byte) ≠ 7 ∧ (at' 252 0xF4 0).pc.toNat ≤ 252 := by decide

theorem witness_StepKeepsTheStateLegal :
    (at' 0 0xF4 0).Inv ∧ ∃ t, stepWith defaultOpc (at' 0 0xF4 0) = .next t :=
  ⟨⟨rfl, fun _ => rfl, fun _ h => (by cases h), fun _ h => (by cases h)⟩, _, rfl⟩

theorem witness_LaunchStateIsLegal : ∃ s, launchWith 0xF4 [1, 2] = some s := ⟨_, rfl⟩

theorem witness_MemoryFormIsCanonical :
    Memory.wf [(3, 1), (255, 7)] = true ∧ Memory.wf [(3, 0)] = false ∧ Memory.wf [(4, 1), (3, 1)] = false ∧
    Memory.wf [(256, 1)] = false := by decide

theorem witness_ExitStatusIsAFunctionOfTheFinalState : (3 : Int) ≠ 0 := by decide

end Sys2Proof.Tests
end

/-! ### Proofs of the statements about the state

What a completion keeps, which records are legal, and the statements that follow. -/

namespace Sys2Proof.Machine

section Completions
variable {s t : State} {i : Instr}

/-- FAULT is written by an exception only. -/
theorem Completes.fault_eq (h : Completes s i t) : t.fault = s.fault := by cases h <;> simp

/-- Rule R34: a completion stores one byte, for PUSH and CALL, or leaves memory alone. -/
theorem Completes.mem_eq (h : Completes s i t) :
    t.mem = s.mem ∨ ((i.mnemonic = .push ∨ i.mnemonic = .call) ∧
      ∃ a v : Byte, t.mem = s.mem.write a.toNat v) := by
  cases h with
  | push => exact .inr ⟨.inl rfl, _, _, rfl⟩
  | call => exact .inr ⟨.inr rfl, _, _, rfl⟩
  | _ => exact .inl (by simp)

/-- Rule R38: a completion appends the register PRN names, or leaves OUT alone. -/
theorem Completes.out_eq (h : Completes s i t) :
    t.out = s.out ∨ ∃ (r : Byte) (hr : r.toNat < 8), i = .prn r ∧
      t.out = s.out ++ [(s.getReg ⟨r.toNat, hr⟩).toNat] := by
  cases h with
  | prn hr => exact .inr ⟨_, hr, rfl, rfl⟩
  | _ => exact .inl (by simp)

/-- Rule R28: a completion of an instruction other than CMP leaves FL alone. -/
theorem Completes.fl_eq (h : Completes s i t) (hi : ∀ a b, i ≠ .cmp a b) : t.fl = s.fl := by
  cases h with
  | cmp => exact absurd rfl (hi _ _)
  | _ => simp

end Completions

/-! ### The invariant (`State.Inv`) -/

section Invariant
variable {s t : State} {i : Instr}

/-- Taking an exception keeps the invariant when its record is a legal one. -/
theorem State.Inv.raise (hs : s.Inv) {r : Raise}
    (hr : FaultRecord.Legal s ⟨r.cause, s.pc, r.opcode, r.kind, r.index⟩) : (s.raise r).Inv where
  memWf := hs.memWf
  runningClean h := by simp at h
  outBytes := hs.outBytes
  faultLegal f hf := by
    obtain rfl := Option.some.inj hf
    exact hr

/-- Rule R111's record is legal where the fetch window leaves memory. -/
theorem fetchWindowFault_legal (hp : 253 < s.pc.toNat) :
    FaultRecord.Legal s ⟨.outOfRangeAccess, s.pc, none, some .mem, some 256⟩ :=
  ⟨rfl, .inr (.inl ⟨rfl, rfl, rfl, rfl, hp⟩)⟩

/-- Every exception an instruction may raise after a fetch leaves a legal record: an advance that fails
gives exactly 256, because `pc` is at most 253. -/
theorem Raises.legal {r : Raise} (h : Raises s i r) (hp : s.pc.toNat ≤ 253) :
    FaultRecord.Legal s ⟨r.cause, s.pc, r.opcode, r.kind, r.index⟩ := by
  have advanced (h3 : 255 < s.pc.toNat + 3) : ((s.pc.toNat + 3 : Nat) : Int) = 256 := by omega
  refine ⟨rfl, .inr (.inr ?_)⟩
  cases h with
  | operand _ h =>
    exact ⟨rfl, rfl, hp, .inr (.inl ⟨rfl, _, h, Nat.le_of_lt_succ (BitVec.isLt _), rfl⟩)⟩
  | push | call => exact ⟨rfl, rfl, hp, .inl ⟨rfl, .inl rfl⟩⟩
  | pop | ret => exact ⟨rfl, rfl, hp, .inl ⟨rfl, .inr rfl⟩⟩
  | ldi h | add h | mul h | cmp h =>
    exact ⟨rfl, rfl, hp, .inr (.inr ⟨rfl, congrArg some (advanced h)⟩)⟩
  | beyondFetch h => omega

/-- A completion from a RUNNING state keeps the invariant. -/
theorem Completes.inv (h : Completes s i t) (hs : s.Inv) (hr : s.run = .running) : t.Inv := by
  have clean : t.fault = none := h.fault_eq.trans (hs.runningClean hr)
  refine ⟨?_, fun _ => clean, ?_, fun f hf => by simp [clean] at hf⟩
  · rcases h.mem_eq with hm | ⟨-, a, v, hm⟩ <;> rw [hm]
    · exact hs.memWf
    · exact Memory.wf_write hs.memWf a.isLt v
  · rcases h.out_eq with ho | ⟨r, hk, -, ho⟩ <;> rw [ho]
    · exact hs.outBytes
    · intro v hv
      rcases List.mem_append.mp hv with hv | hv
      · exact hs.outBytes v hv
      · rw [List.mem_singleton.mp hv]
        exact Nat.le_of_lt_succ (BitVec.isLt _)

theorem exec_keeps_inv (hs : s.Inv) (hr : s.run = .running) (hp : s.pc.toNat ≤ 253)
    (h : exec i s = .next t) : t.Inv := by
  rcases exec_next_cases h with ⟨r, hraise, rfl⟩ | hc
  · exact hs.raise (hraise.legal hp)
  · exact hc.inv hs hr

end Invariant

/-- Settles O47: the four outcomes of a step, each of which keeps the invariant. -/
theorem stepKeepsTheStateLegal : Obligations.StepKeepsTheStateLegal := by
  intro opc s t hs h
  rcases stepWith_cases opc s with ⟨_, he⟩ | ⟨_, hp, he⟩ | ⟨_, _, _, he⟩ | ⟨hr, hp, i, _, he⟩ <;>
    rw [he] at h
  · obtain rfl := Host.Outcome.next.inj h
    exact hs
  · obtain rfl := Host.Outcome.next.inj h
    exact hs.raise (fetchWindowFault_legal hp)
  · obtain rfl := Host.Outcome.next.inj h
    exact hs.raise ⟨rfl, .inl ⟨rfl, rfl, rfl, rfl⟩⟩
  · exact exec_keeps_inv hs hr hp h

/-- Settles O48. -/
theorem resetStateIsLegal : Obligations.ResetStateIsLegal where
  memWf := rfl
  runningClean _ := rfl
  outBytes _ hv := by cases hv
  faultLegal _ hf := by cases hf

/-! ### Reset, HALTED and the exit status -/

/-- Settles O1. -/
theorem resetPutsEveryItemAtItsValue : Obligations.ResetPutsEveryItemAtItsValue := by
  refine ⟨?_, rfl⟩
  rintro spReset _ rfl
  refine ⟨fun _ => rfl, rfl, rfl, fun k hk => ?_, rfl, rfl, rfl, rfl⟩
  match k, hk with
  | 0, _ | 1, _ | 2, _ | 3, _ | 4, _ | 5, _ | 6, _ => rfl
  | 7, hk => exact absurd rfl hk

theorem stepWith_of_halted {s : State} (hs : s.run = .halted) (opc : OpcodeMap) :
    stepWith opc s = .next s := by
  simp [stepWith, hs, haltedStep]

/-- Settles O25, by induction on the number of steps. -/
theorem haltedPerformsNoCycle : Obligations.HaltedPerformsNoCycle := by
  intro s k hs
  refine ⟨stepWith_of_halted hs, ?_⟩
  induction k with
  | zero => rfl
  | succ k ih =>
    have hstep : Sys2Proof.core.step s = .next s := stepWith_of_halted hs defaultOpc
    simp only [Host.Core.run, hstep, ih]

/-- Settles O51: the two values of RUN, with and without a record. -/
theorem exitStatusIsAFunctionOfTheFinalState : Obligations.ExitStatusIsAFunctionOfTheFinalState := by
  intro s
  cases hr : s.run with
  | running => simp [State.exitStatus, exitCode, hr]
  | halted =>
    cases hf : s.fault with
    | none => simpa [State.exitStatus, exitCode, hr, hf] using fun _ h h0 => h h0.symm
    | some f => simp [State.exitStatus, exitCode, hr, hf]

/-! ### The canonical form of memory -/

/-- A cell above the address space reads as the unlisted value. -/
theorem Memory.read_beyond {lo b : Nat} {m : Memory} (hm : Memory.wfFrom lo m = true) (hb : 256 ≤ b) :
    m.read b = Memory.unlisted := by
  induction m generalizing lo with
  | nil => rfl
  | cons c rest ih =>
    obtain ⟨a, v⟩ := c
    obtain ⟨-, ha, -, hrest⟩ := Memory.wfFrom_cons.mp hm
    simpa [Memory.read, show a ≠ b by omega] using ih hrest

/-- Settles O50: the memories also agree beyond the 256 cells, where both read as unlisted. -/
theorem memoryFormIsCanonical : Obligations.MemoryFormIsCanonical := by
  intro m m' hm hm' h
  refine Memory.eq_of_read hm hm' fun a => ?_
  rcases Nat.lt_or_ge a 256 with ha | ha
  · exact h a ha
  · rw [Memory.read_beyond hm ha, Memory.read_beyond hm' ha]

/-! ### What a step writes, and when -/

/-- The inversion of a step: it changes nothing but FAULT and RUN, or it completes the instruction that the
bytes at `pc` decode to. -/
theorem stepWith_next_cases {opc : OpcodeMap} {s t : State} (h : stepWith opc s = .next t) :
    t = s ∨ (∃ r, t = s.raise r) ∨ ∃ i, Completes s i t ∧
      decodeWindow opc s.b0 (s.mem.read (s.pc.toNat + 1)) (s.mem.read (s.pc.toNat + 2)) = .ok i := by
  rcases stepWith_cases opc s with ⟨_, he⟩ | ⟨_, _, he⟩ | ⟨_, _, _, he⟩ | ⟨_, _, i, hd, he⟩ <;>
    rw [he] at h
  · exact .inl (Host.Outcome.next.inj h).symm
  · exact .inr (.inl ⟨_, (Host.Outcome.next.inj h).symm⟩)
  · exact .inr (.inl ⟨_, (Host.Outcome.next.inj h).symm⟩)
  · rcases exec_next_cases h with ⟨r, _, rfl⟩ | hc
    · exact .inr (.inl ⟨r, rfl⟩)
    · exact .inr (.inr ⟨i, hc, hd⟩)

/-- A step in a RUNNING state runs the instruction that its fetched window decodes to. -/
theorem stepWith_of_fetch {opc : OpcodeMap} {s : State} {w : Window} {i : Instr} (hr : s.run = .running)
    (hw : fetch s = .ok w) (hd : decodeWindow opc w.b0 w.b1 w.b2 = .ok i) :
    stepWith opc s = exec i s := by
  simp [stepWith, hr, hw, hd]

/-- The fetch reads the three bytes from `pc` on (rule R111). -/
theorem fetch_ok {s : State} (hp : s.pc.toNat ≤ 253) :
    fetch s = .ok ⟨s.b0, s.mem.read (s.pc.toNat + 1), s.mem.read (s.pc.toNat + 2)⟩ := by
  simp [fetch, State.b0, State.memRead, show ¬ 253 < s.pc.toNat by omega]

/-- Settles O39: only a completion of PUSH or CALL stores, and then B0 is its opcode byte. -/
theorem memoryIsWrittenByPushAndCallOnly : Obligations.MemoryIsWrittenByPushAndCallOnly := by
  intro opc s t h hpush hcall
  rcases stepWith_next_cases h with rfl | ⟨r, rfl⟩ | ⟨i, hc, hd⟩
  · rfl
  · rfl
  · have hop : opc i.mnemonic = s.b0 := (decodeWindow_ok hd).1
    rcases hc.mem_eq with hm | ⟨hi | hi, _⟩
    · exact hm
    · exact absurd (hi ▸ hop).symm hpush
    · exact absurd (hi ▸ hop).symm hcall

/-- Settles O40: only a completion of PRN emits, and its decoded operand byte is the byte after B0. -/
theorem outputIsAppendedByPrnOnly : Obligations.OutputIsAppendedByPrnOnly := by
  intro opc s t h
  rcases stepWith_next_cases h with rfl | ⟨r, rfl⟩ | ⟨i, hc, hd⟩
  · exact .inl rfl
  · exact .inl rfl
  · rcases hc.out_eq with ho | ⟨r, hr, rfl, ho⟩
    · exact .inl ho
    · obtain ⟨hop, hinstr⟩ := decodeWindow_ok hd
      have hb1 : s.mem.read (s.pc.toNat + 1) = r := Instr.prn.inj hinstr
      exact .inr ⟨hop.symm, ⟨r.toNat, hr⟩, congrArg BitVec.toNat hb1.symm, ho⟩

/-! ### The program counter -/

/-- An advance that passed its check is the exact sum. -/
theorem toNat_advanced {pc : Byte} {n : Nat} (h : pc.toNat + n ≤ 255) :
    (pc + BitVec.ofNat 8 n).toNat = pc.toNat + n := by
  simp only [BitVec.toNat_add, BitVec.toNat_ofNat]
  omega

/-- Settles O31: the completion of each instruction says where it leaves `pc`. -/
theorem pcAfterACycle : Obligations.PcAfterACycle := by
  intro opc s t hr hf h
  refine ⟨fun ht => ?_, fun i hp hd ht => ?_⟩
  · rcases stepWith_next_cases h with rfl | ⟨r, rfl⟩ | ⟨i, hc, _⟩
    · rfl
    · rfl
    · exact absurd (hc.fault_eq.trans hf) ht
  · have hc : Completes s i t := by
      rw [stepWith_of_fetch hr (fetch_ok hp) hd] at h
      rcases exec_next_cases h with ⟨r, _, rfl⟩ | hc
      · simp at ht
      · exact hc
    cases hc with
    | ldi _ hn | add _ _ hn | mul _ _ hn | cmp _ _ hn => exact toNat_advanced hn
    | prn _ hn | push _ _ hn | pop _ _ hn => exact toNat_advanced hn
    | call hk | jmp hk => exact ⟨⟨_, hk⟩, rfl, rfl⟩
    | ret | hlt => rfl
    | jeqTaken hk hfl | jneTaken hk hfl =>
      simp only [hfl, if_true]
      exact ⟨⟨_, hk⟩, rfl, rfl⟩
    | jeqNotTaken _ hfl hn | jneNotTaken _ hfl hn => simpa [hfl] using toNat_advanced hn

/-! ### The placed word -/

/-- The next fetch reads the window placed at `pc`. -/
theorem fetch_placeWindow {s : State} (hm : s.mem.wf = true) (hp : s.pc.toNat ≤ 253) (w : Window) :
    fetch (s.placeWindow w) = .ok w := by
  have hm0 := Memory.wf_write hm (a := s.pc.toNat) (by omega) w.b0
  have hm1 := Memory.wf_write hm0 (a := s.pc.toNat + 1) (by omega) w.b1
  simp [fetch, State.placeWindow, Memory.read_write hm1, Memory.read_write hm0, Memory.read_write hm,
    show ¬ 253 < s.pc.toNat by omega]

theorem State.readyToFetch_pc_le (s : State) : s.readyToFetch.pc.toNat ≤ 253 := by
  simp only [State.readyToFetch]
  split_ifs with h
  · decide
  · exact Nat.le_of_not_lt h

theorem decodeWindow_of_decodeTableWord {nbits w : Nat} {i : Instr} (h : decodeTableWord nbits w = some i) :
    decodeWindow defaultOpc (tableByte nbits w 0) (tableByte nbits w 1) (tableByte nbits w 2) = .ok i := by
  unfold decodeTableWord at h
  split at h
  · simp_all
  · cases h

/-- Settles O32. -/
theorem placedWordIsTheNextStepsInstruction : Obligations.PlacedWordIsTheNextStepsInstruction := by
  intro s nbits w i hm hd
  have hfetch := fetch_placeWindow (s := s.readyToFetch) hm s.readyToFetch_pc_le
    ⟨tableByte nbits w 0, tableByte nbits w 1, tableByte nbits w 2⟩
  exact stepWith_of_fetch rfl hfetch (decodeWindow_of_decodeTableWord hd)

/-! ### Non-interference: registers and FL

A cycle makes its checks and its writes as one value `c : Except Raise State`, ended by `finish`. Two runs
from states that differ in one item are compared through that value: where the checks agree and the writes
commute with the change, the cycle ends in the same state but for the change. -/

section Checks
variable (s : State) (k : RegIdx) (v b : Byte) (n : Nat)

@[simp] theorem reg_setReg : reg (s.setReg k v) b = reg s b := rfl
@[simp] theorem advance_setReg : advance (s.setReg k v) n = advance s n := rfl
@[simp] theorem popIncrement_setReg : popIncrement (s.setReg k v) b = popIncrement s b := rfl

theorem State.sp_setReg_of_ne {k : RegIdx} (h : k ≠ 7) : (s.setReg k v).sp = s.sp :=
  State.getReg_setReg_of_ne s k spIndex v h

theorem pushAddress_setReg {k : RegIdx} (h : k ≠ 7) : pushAddress (s.setReg k v) = pushAddress s := by
  unfold pushAddress
  rw [State.sp_setReg_of_ne s v h]
  rfl

/-- The operand check answers the register whose index is the operand byte. -/
theorem val_of_reg_ok {s : State} {b : Byte} {a : RegIdx} (h : reg s b = .ok a) : a.val = b.toNat := by
  rcases reg_cases s b with ⟨_, hr⟩ | ⟨_, hr⟩
  · rw [← Except.ok.inj (hr.symm.trans h)]
  · cases hr.symm.trans h

/-- A register that the operand byte does not name is not the one the check answers. -/
theorem ne_of_reg_ok {s : State} {b : Byte} {a k : RegIdx} (h : reg s b = .ok a) (hk : k.val ≠ b.toNat) :
    k ≠ a := by
  rintro rfl
  exact hk (val_of_reg_ok h)

end Checks

section Commute
variable (s : State) (k j : RegIdx) (v w a : Byte) (n : Nat)

@[simp] theorem State.setPc_setReg : (s.setReg k v).setPc w = (s.setPc w).setReg k v := rfl
@[simp] theorem State.emit_setReg : (s.setReg k v).emit n = (s.emit n).setReg k v := rfl
@[simp] theorem State.memWrite_setReg :
    (s.setReg k v).memWrite a w = (s.memWrite a w).setReg k v := rfl

theorem State.setReg_comm {k j : RegIdx} (h : k ≠ j) :
    (s.setReg k v).setReg j w = (s.setReg j w).setReg k v := by
  refine State.ext_reg rfl (fun l => ?_) rfl rfl rfl rfl rfl
  by_cases hk : k = l
  · subst hk
    simp [State.getReg_setReg_of_ne _ _ _ _ h.symm]
  · simp [State.getReg_setReg, hk]

theorem State.setReg_setReg_self : (s.setReg k v).setReg k w = s.setReg k w := by
  refine State.ext_reg rfl (fun l => ?_) rfl rfl rfl rfl rfl
  by_cases hk : k = l <;> simp [State.getReg_setReg, hk]

theorem State.getReg_setSp_of_ne {k : RegIdx} (h : k ≠ 7) : (s.setSp w).getReg k = s.getReg k :=
  State.getReg_setReg_of_ne s spIndex k w h.symm

theorem State.setSp_setReg {k : RegIdx} (h : k ≠ 7) :
    (s.setReg k v).setSp w = (s.setSp w).setReg k v := State.setReg_comm s v w h

/-- PUSH's writes: the value is computed from the state after the decrement. -/
theorem push_setReg {k : RegIdx} (h : k ≠ 7) {f : State → Byte}
    (hf : f ((s.setSp a).setReg k v) = f (s.setSp a)) :
    push (s.setReg k v) a f = (push s a f).setReg k v := by
  simp only [push, State.setSp_setReg s v a h, hf, State.memWrite_setReg]

theorem writeAluResult_setReg {k j : RegIdx} (h : k ≠ j) (r : AluResult) :
    writeAluResult (s.setReg k v) j r = (writeAluResult s j r).setReg k v := by
  cases r with
  | value w => exact State.setReg_comm s v w h
  | flag f => rfl

end Commute

section TwoRuns
variable {g : State → State} {s t : State} {c c' : Except Raise State}

/-- Two runs whose cycle values correspond under a change `g` end in states that correspond under `g`. -/
theorem finish_map (hg : ∀ r, (g s).raise r = g (s.raise r)) (hc : c' = g <$> c)
    (h : finish s c = .next t) : finish (g s) c' = .next (g t) := by
  subst hc
  rcases finish_cases h with rfl | ⟨r, rfl, rfl⟩
  · rfl
  · exact congrArg Host.Outcome.next (hg r)

/-- Two runs with the same cycle value end in the same state, unless a check raised. -/
theorem finish_same (hg : ∀ r, (g s).raise r = g (s.raise r)) (hc : c' = c)
    (h : finish s c = .next t) :
    finish (g s) c' = .next t ∨ (FaultedFrom s t ∧ finish (g s) c' = .next (g t)) := by
  subst hc
  rcases finish_cases h with rfl | ⟨r, rfl, rfl⟩
  · exact .inl rfl
  · exact .inr ⟨⟨_, rfl⟩, congrArg Host.Outcome.next (hg r)⟩

/-- After the same check, it is enough to compare what follows where the check passes. -/
theorem map_check_bind {α : Type} {x : Except Raise α} {d d' : α → Except Raise State}
    (h : ∀ a, x = .ok a → d' a = g <$> d a) : x >>= d' = g <$> (x >>= d) := by
  cases x with
  | ok a => exact h a rfl
  | error r => rfl

/-- The same for one value of both runs. -/
theorem check_bind_congr {α : Type} {x : Except Raise α} {d d' : α → Except Raise State}
    (h : ∀ a, x = .ok a → d' a = d a) : x >>= d' = x >>= d := by
  cases x with
  | ok a => exact h a rfl
  | error r => rfl

end TwoRuns

/-! ### Registers (rule R23) -/

section Registers
variable {s t : State} {i : Instr} {k : RegIdx} {r : Byte}

/-- Rule R23, the "written" column: a completion leaves every other register alone. -/
theorem Completes.getReg_eq (h : Completes s i t) (hw : writesReg k i = false) :
    t.getReg k = s.getReg k := by
  have other {b : Byte} (hb : b.toNat < 8) (hk : k.val ≠ b.toNat) (u : State) (v : Byte) :
      (u.setReg ⟨b.toNat, hb⟩ v).getReg k = u.getReg k :=
    State.getReg_setReg_of_ne u _ k v fun e => hk (congrArg Fin.val e).symm
  cases h with
  | ldi hr | add hr | mul hr => exact other hr (by simpa [writesReg] using hw) s _
  | push | call | ret => exact State.getReg_setSp_of_ne s _ (by simpa [writesReg] using hw)
  | pop hr =>
    obtain ⟨hkr, hk7⟩ := Bool.or_eq_false_iff.mp hw
    exact (State.getReg_setSp_of_ne _ _ (by simpa using hk7)).trans (other hr (by simpa using hkr) s _)
  | _ => rfl

/-- The change of one register commutes with taking an exception. -/
theorem finish_setReg {c c' : Except Raise State} (v : Byte) (hc : c' = (State.setReg · k v) <$> c)
    (h : finish s c = .next t) : finish (s.setReg k v) c' = .next (t.setReg k v) :=
  finish_map (g := (State.setReg · k v)) (fun _ => rfl) hc h

theorem aluCycle_setReg {op : AluOp} {a b : Byte} (v : Byte) (ha : k.val ≠ a.toNat)
    (hb : k.val ≠ b.toNat) (h : aluCycle op a b s = .next t) :
    aluCycle op a b (s.setReg k v) = .next (t.setReg k v) := by
  refine finish_setReg v ?_ h
  refine map_check_bind fun a' ha' => map_check_bind fun b' hb' => map_check_bind fun n _ => ?_
  have hka := ne_of_reg_ok ha' ha
  have hkb := ne_of_reg_ok hb' hb
  simp [State.getReg_setReg_of_ne s k _ v hka, State.getReg_setReg_of_ne s k _ v hkb,
    writeAluResult_setReg s v hka]

theorem branchCycle_setReg {taken : Bool} (v : Byte) (hr : taken = true → k.val ≠ r.toNat)
    (h : branchCycle taken r s = .next t) :
    branchCycle taken r (s.setReg k v) = .next (t.setReg k v) := by
  refine finish_setReg v ?_ h
  refine map_check_bind fun a ha => ?_
  cases taken with
  | true => simp [State.getReg_setReg_of_ne s k a v (ne_of_reg_ok ha (hr rfl))]
  | false => exact map_check_bind fun n _ => rfl

theorem execPush_setReg (v : Byte) (h7 : k ≠ 7) (hr : k.val ≠ r.toNat) (h : execPush r s = .next t) :
    execPush r (s.setReg k v) = .next (t.setReg k v) := by
  refine finish_setReg v ?_ h
  rw [pushAddress_setReg s v h7]
  refine map_check_bind fun a ha => map_check_bind fun p _ => map_check_bind fun n _ => ?_
  have hread := State.getReg_setReg_of_ne (s.setSp p) k a v (ne_of_reg_ok ha hr)
  simp [push_setReg s v p h7 (f := (State.getReg · a)) hread]

theorem execCall_setReg (v : Byte) (h7 : k ≠ 7) (hr : k.val ≠ r.toNat) (h : execCall r s = .next t) :
    execCall r (s.setReg k v) = .next (t.setReg k v) := by
  refine finish_setReg v ?_ h
  rw [pushAddress_setReg s v h7]
  refine map_check_bind fun a ha => map_check_bind fun p _ => map_check_bind fun n _ => ?_
  simp [push_setReg s v p h7, State.getReg_setReg_of_ne _ k a v (ne_of_reg_ok ha hr)]

theorem execPop_setReg_of_ne (v : Byte) (h7 : k ≠ 7) (hr : k.val ≠ r.toNat)
    (h : execPop r s = .next t) : execPop r (s.setReg k v) = .next (t.setReg k v) := by
  refine finish_setReg v ?_ h
  refine map_check_bind fun a ha => ?_
  have hka := ne_of_reg_ok ha hr
  simp only [State.sp_setReg_of_ne _ v h7, State.setReg_comm s v _ hka, State.memRead_setReg,
    popIncrement_setReg]
  refine map_check_bind fun p _ => map_check_bind fun n _ => ?_
  simp [State.setSp_setReg _ v p h7]

theorem execRet_setReg (v : Byte) (h7 : k ≠ 7) (h : execRet s = .next t) :
    execRet (s.setReg k v) = .next (t.setReg k v) := by
  refine finish_setReg v ?_ h
  simp only [State.sp_setReg_of_ne s v h7, popIncrement_setReg]
  refine map_check_bind fun p _ => ?_
  simp [State.setSp_setReg s v p h7]

/-- Rule R23, the "read" column: a register that is neither read nor written has no influence. -/
theorem exec_setReg_of_unwritten (v : Byte) (hread : readsReg s.fl k i = false)
    (hwrite : writesReg k i = false) (h : exec i s = .next t) :
    exec i (s.setReg k v) = .next (t.setReg k v) := by
  cases i with
  | ldi r w =>
    refine finish_setReg v ?_ h
    refine map_check_bind fun a ha => map_check_bind fun n _ => ?_
    simp [State.setReg_comm s v w (ne_of_reg_ok ha (by simpa [writesReg] using hwrite))]
  | prn r =>
    refine finish_setReg v ?_ h
    refine map_check_bind fun a ha => map_check_bind fun n _ => ?_
    simp [State.getReg_setReg_of_ne s k a v (ne_of_reg_ok ha (by simpa [readsReg] using hread))]
  | add a b | mul a b | cmp a b =>
    have ⟨ha, hb⟩ : k.val ≠ a.toNat ∧ k.val ≠ b.toNat := by simpa [readsReg] using hread
    exact aluCycle_setReg v ha hb h
  | push r =>
    have ⟨h7, hr⟩ : k ≠ 7 ∧ k.val ≠ r.toNat := by simpa [readsReg] using hread
    exact execPush_setReg v h7 hr h
  | pop r =>
    have ⟨hr, h7⟩ : k.val ≠ r.toNat ∧ k ≠ 7 := by simpa [writesReg] using hwrite
    exact execPop_setReg_of_ne v h7 hr h
  | call r =>
    have ⟨h7, hr⟩ : k ≠ 7 ∧ k.val ≠ r.toNat := by simpa [readsReg] using hread
    exact execCall_setReg v h7 hr h
  | ret => exact execRet_setReg v (by simpa [readsReg] using hread) h
  | jmp r =>
    refine finish_setReg v ?_ h
    refine map_check_bind fun a ha => ?_
    simp [State.getReg_setReg_of_ne s k a v (ne_of_reg_ok ha (by simpa [readsReg] using hread))]
  | jeq r => exact branchCycle_setReg v (fun ht => by simp_all [takenIfEqual, readsReg]) h
  | jne r => exact branchCycle_setReg v (fun ht => by simp_all [takenIfNotEqual, readsReg]) h
  | hlt => exact finish_setReg (s := s) (c := .ok s.halt) v rfl h

/-- Rule R23, the "read" column: a register that is written and not read (LDI's and POP's destination) ends
with the same value, unless an exception is taken. -/
theorem exec_setReg_of_written (v : Byte) (hread : readsReg s.fl k i = false)
    (hwrite : writesReg k i = true) (h : exec i s = .next t) :
    exec i (s.setReg k v) = .next t ∨
      (FaultedFrom s t ∧ exec i (s.setReg k v) = .next (t.setReg k v)) := by
  have hg : ∀ r, (s.setReg k v).raise r = (s.raise r).setReg k v := fun _ => rfl
  cases i with
  | ldi r w =>
    refine finish_same (g := (State.setReg · k v)) hg ?_ h
    refine check_bind_congr fun a ha => check_bind_congr fun n _ => ?_
    obtain rfl : k = a := Fin.ext (by simpa [writesReg, val_of_reg_ok ha] using hwrite)
    rw [State.setReg_setReg_self]
  | pop r =>
    have h7 : k ≠ 7 := by simpa [readsReg] using hread
    refine finish_same (g := (State.setReg · k v)) hg ?_ h
    refine check_bind_congr fun a ha => ?_
    obtain rfl : k = a := Fin.ext (by simpa [writesReg, val_of_reg_ok ha, h7] using hwrite)
    simp only [State.setReg_setReg_self, State.sp_setReg_of_ne s v h7, State.memRead_setReg]
    rfl
  | _ =>
    -- Every other register that an instruction writes is one it also reads.
    simp_all [readsReg, writesReg]

end Registers

/-- Every instruction answers a next state. -/
theorem exec_next (i : Instr) (s : State) : ∃ t, exec i s = .next t := by
  rcases exec_outcome s i with ⟨_, _, he⟩ | ⟨_, _, he⟩
  · exact ⟨_, he⟩
  · exact ⟨_, he⟩

/-- Settles O37: the inversion of `exec` for what is written, the comparison of two runs for what is read. -/
theorem registersReadAndWritten : Obligations.RegistersReadAndWritten := by
  refine ⟨fun i s t k h hw => ?_, fun i s k v hread => ?_⟩
  · rcases exec_next_cases h with ⟨r, _, rfl⟩ | hc
    · rfl
    · exact hc.getReg_eq hw
  · obtain ⟨t, ht⟩ := exec_next i s
    cases hw : writesReg k i with
    | false => exact ⟨t, _, ht, exec_setReg_of_unwritten v hread hw ht, fun _ => rfl, by simp⟩
    | true =>
      rcases exec_setReg_of_written v hread hw ht with hu | ⟨hf, hu⟩
      · exact ⟨t, _, ht, hu, by simp, fun _ => .inl rfl⟩
      · exact ⟨t, _, ht, hu, by simp, fun _ => .inr ⟨hf, rfl⟩⟩

/-! ### FL (rule R28) -/

section Flag
variable {s t : State} {i : Instr} {f : Flag}

/-- The change of FL commutes with taking an exception. -/
theorem finish_setFl {c c' : Except Raise State} (hc : c' = (State.setFl · f) <$> c)
    (h : finish s c = .next t) : finish (s.setFl f) c' = .next (t.setFl f) :=
  finish_map (g := (State.setFl · f)) (fun _ => rfl) hc h

theorem execRet_setFl (h : execRet s = .next t) : execRet (s.setFl f) = .next (t.setFl f) :=
  finish_setFl (map_check_bind fun _ _ => rfl) h

/-- Rule R28: for an instruction other than JEQ and JNE, the value of FL has no influence on anything else.
CMP overwrites it; every other such instruction carries it along. -/
theorem exec_setFl (hjeq : ∀ r, i ≠ .jeq r) (hjne : ∀ r, i ≠ .jne r) (h : exec i s = .next t) :
    exec i (s.setFl f) = .next (t.setFl f) ∨ exec i (s.setFl f) = .next t := by
  cases i with
  | ldi | prn =>
    exact .inl (finish_setFl (map_check_bind fun _ _ => map_check_bind fun _ _ => rfl) h)
  | add | mul | push | pop | call =>
    exact .inl (finish_setFl
      (map_check_bind fun _ _ => map_check_bind fun _ _ => map_check_bind fun _ _ => rfl) h)
  | ret => exact .inl (execRet_setFl h)
  | jmp => exact .inl (finish_setFl (map_check_bind fun _ _ => rfl) h)
  | hlt => exact .inl (finish_setFl (s := s) (c := .ok s.halt) rfl h)
  | cmp =>
    have hsame := finish_same (g := (State.setFl · f)) (fun _ => rfl)
      (check_bind_congr fun _ _ => check_bind_congr fun _ _ => check_bind_congr fun _ _ => rfl) h
    exact hsame.symm.imp And.right id
  | jeq r => exact absurd rfl (hjeq r)
  | jne r => exact absurd rfl (hjne r)

end Flag

/-- Settles O38: the inversion of `exec` for what is written, the comparison of two runs for what is read. -/
theorem flagWrittenByCmpReadByJumps : Obligations.FlagWrittenByCmpReadByJumps := by
  refine ⟨fun i s t h hi => ?_, fun i s f hjeq hjne => ?_⟩
  · rcases exec_next_cases h with ⟨r, _, rfl⟩ | hc
    · rfl
    · exact hc.fl_eq hi
  · obtain ⟨t, ht⟩ := exec_next i s
    rcases exec_setFl (f := f) hjeq hjne ht with hu | hu
    · exact ⟨t, _, ht, hu, rfl, rfl, rfl, rfl, rfl, rfl⟩
    · exact ⟨t, _, ht, hu, rfl, rfl, rfl, rfl, rfl, rfl⟩

/-! ### Each listed register is written and has influence -/

theorem wf_operand_lt {i : Instr} {v : Byte} (hi : i.wf = true) (hv : v ∈ i.regOperands) : v.toNat < 8 := by
  have hle := List.all_eq_true.mp hi v hv
  simp only [isRegOperand, decide_eq_true_eq] at hle
  omega

/-- A legal instruction completes where neither the stack nor the advance can fail. -/
theorem exec_completes {i : Instr} {s : State} (hi : i.wf = true) (hp : s.pc.toNat ≤ 252) (h0 : s.sp ≠ 0)
    (h255 : s.sp ≠ 255) (hl : s.memRead s.sp ≠ 255) : ∃ t, Completes s i t ∧ exec i s = .next t := by
  rcases exec_outcome s i with ⟨r, hr, _⟩ | hc
  · cases hr with
    | operand hv h7 =>
      have := wf_operand_lt hi hv
      omega
    | push h | call h => exact absurd h h0
    | ret h => exact absurd h h255
    | pop h => split_ifs at h <;> contradiction
    | ldi | add | mul | cmp | beyondFetch => omega
  · exact hc

/-- The state in which each listed register is seen: every register holds `b`, `pc` is 0, FL is `f`, and
cell 3 alone holds a byte. -/
def probe (f : Flag) (b : Byte) : State :=
  { State.reset with mem := [(3, 4)], x := Vector.replicate 8 b, fl := f }

@[simp] theorem probe_pc (f : Flag) (b : Byte) : (probe f b).pc = 0 := rfl

@[simp] theorem probe_getReg (f : Flag) (b : Byte) (k : RegIdx) : (probe f b).getReg k = b := by
  simp [probe, State.getReg]

@[simp] theorem probe_sp (f : Flag) (b : Byte) : (probe f b).sp = b := probe_getReg f b spIndex

/-- LDI of `v` is seen where its register holds `v + 1`. -/
theorem exists_write_ldi {r v : Byte} {k : RegIdx} (hr : r.toNat < 8) (hk : k.val = r.toNat) :
    ∃ s t : State, exec (.ldi r v) s = .next t ∧ t.getReg k ≠ s.getReg k := by
  obtain rfl : k = ⟨r.toNat, hr⟩ := Fin.ext hk
  rcases execLdi_cases (probe 0 (v + 1)) r v with ⟨h, _⟩ | ⟨_, h, _⟩ | ⟨_, _, he⟩
  · omega
  · simp at h
  · refine ⟨_, _, he, ?_⟩
    rw [State.getReg_setPc, State.getReg_setReg_self, probe_getReg]
    bv_omega

/-- Rule R23, the "written" column, as a lower bound: LDI apart, each completion from the state with 2 in
every register leaves another value in each register it writes. -/
theorem exists_write {i : Instr} {k : RegIdx} (hi : i.wf = true) (hw : writesReg k i = true) :
    ∃ s t : State, exec i s = .next t ∧ t.getReg k ≠ s.getReg k := by
  obtain ⟨t, hc, he⟩ := exec_completes (s := probe 0 2) hi (by decide) (by decide) (by decide) (by decide)
  have hsp : ∀ t : State, t.sp ≠ 2 → t.getReg 7 ≠ (probe 0 2).getReg 7 := fun t h => h
  cases hc with
  | ldi hr => exact exists_write_ldi hr (by simpa [writesReg] using hw)
  | add ha | mul ha =>
    obtain rfl : k = ⟨_, ha⟩ := Fin.ext (by simpa [writesReg] using hw)
    exact ⟨_, _, he, by simp⟩
  | push | call | ret =>
    obtain rfl : k = 7 := by simpa [writesReg] using hw
    exact ⟨_, _, he, hsp _ (by simp)⟩
  | pop hr =>
    refine ⟨_, _, he, ?_⟩
    by_cases h7 : k = 7
    · subst h7
      refine hsp _ ?_
      rw [State.sp_setPc, State.sp_setSp]
      split_ifs <;> decide
    · obtain rfl : k = ⟨_, hr⟩ := Fin.ext (by simpa [writesReg, h7] using hw)
      rw [State.getReg_setPc, State.getReg_setSp_of_ne _ _ h7, State.getReg_setReg_self, probe_getReg]
      decide
  | _ => simp [writesReg] at hw

/-! A register read has influence: the two runs from `probe f 2` and from the same state with 3 in
register `k` end in states that differ beyond what register `k` held. -/

section Influence
variable {t u : State} {f : Flag} {k : RegIdx} {v : Byte}

/-- A difference in an item that is no register shows influence. -/
theorem influence_of_item {α : Type} (item : State → α) (hitem : item (t.setReg k v) = item t)
    (h : item u ≠ item t) : u ≠ t ∧ u ≠ t.setReg k v :=
  ⟨fun e => h (congrArg item e), fun e => h ((congrArg item e).trans hitem)⟩

/-- So does a register whose value is neither the other run's nor the changed one. -/
theorem influence_of_register (d : RegIdx) (hold : u.getReg d ≠ t.getReg d) (hnew : u.getReg d ≠ v) :
    u ≠ t ∧ u ≠ t.setReg k v := by
  refine ⟨fun e => hold (congrArg (State.getReg · d) e), fun e => ?_⟩
  have hd := congrArg (State.getReg · d) e
  simp only [State.getReg_setReg] at hd
  split_ifs at hd
  · exact hnew hd
  · exact hold hd

/-- With R7 = 2 or 3, neither the stack nor the byte a POP R7 loads is at an end. -/
theorem probe_completes {i : Instr} (f : Flag) (s : State) (hi : i.wf = true) (hp : s.pc = 0)
    (hm : s.mem = (probe f 2).mem) (hsp : s.sp = 2 ∨ s.sp = 3) :
    ∃ t, Completes s i t ∧ exec i s = .next t := by
  have hp' : s.pc.toNat ≤ 252 := by simp [hp]
  have h2 : s.memRead 2 = 0 := by rw [State.memRead, hm]; rfl
  have h3 : s.memRead 3 = 4 := by rw [State.memRead, hm]; rfl
  rcases hsp with h | h
  · exact exec_completes hi hp' (by simp [h]) (by simp [h]) (by rw [h, h2]; decide)
  · exact exec_completes hi hp' (by simp [h]) (by simp [h]) (by rw [h, h3]; decide)

/-- What a read of register `j` answers in the changed run. -/
theorem changed_getReg (f : Flag) (k j : RegIdx) :
    ((probe f 2).setReg k 3).getReg j = if k = j then 3 else 2 := by
  rw [State.getReg_setReg, probe_getReg]

theorem changed_sp (f : Flag) (k : RegIdx) :
    ((probe f 2).setReg k 3).sp = if k = 7 then 3 else 2 := changed_getReg f k spIndex

/-- Cell 1 after a push from `probe f 2` stores at `a`. -/
theorem read_one_write (f : Flag) (a : Nat) (v : Byte) :
    ((probe f 2).mem.write a v).read 1 = if a = 1 then v else 0 :=
  Memory.read_write (m := [(3, 4)]) rfl a v 1

/-- PUSH and CALL read R7: the run with 2 in it stores a non-zero byte in cell 1, the run with 3 does not. -/
theorem push_influence {val val' : State → Byte} {p q : Byte}
    (h0 : val ((probe f 2).setSp 1) ≠ 0) :
    ((push ((probe f 2).setReg 7 3) (3 - 1) val').setPc q).mem.read 1 ≠
      ((push (probe f 2) (2 - 1) val).setPc p).mem.read 1 := by
  simp only [State.setPc_mem, push_mem, State.setReg_mem, read_one_write]
  exact h0.symm

/-- Rule R23, the "read" column, as a lower bound: PRN shows its register in OUT, ADD, MUL and POP in their
destination, CMP in FL, PUSH in memory, CALL in memory (R7) or `pc`, RET and the taken jumps in `pc`. -/
theorem Completes.influence {i : Instr} (ht : Completes (probe f 2) i t)
    (hu : Completes ((probe f 2).setReg k 3) i u) (hread : readsReg f k i = true)
    (hcmp : ∀ a, i ≠ .cmp a a) : u ≠ t ∧ u ≠ t.setReg k 3 := by
  cases ht with
  | ldi | hlt => simp [readsReg] at hread
  | prn hr =>
    cases hu
    obtain rfl : k = ⟨_, hr⟩ := Fin.ext (by simpa [readsReg] using hread)
    exact influence_of_item State.out rfl (by simp)
  | add ha hb | mul ha hb =>
    cases hu
    have hk : k = ⟨_, ha⟩ ∨ k = ⟨_, hb⟩ := by simpa [readsReg, Fin.ext_iff] using hread
    refine influence_of_register ⟨_, ha⟩ ?_ ?_ <;>
      simp only [State.getReg_setPc, State.getReg_setReg_self, changed_getReg, probe_getReg] <;>
      split_ifs <;> simp_all
  | @cmp a b ha hb =>
    cases hu
    have hab : a.toNat ≠ b.toNat := fun e => hcmp a (by rw [BitVec.eq_of_toNat_eq e])
    have hk : k = ⟨_, ha⟩ ∨ k = ⟨_, hb⟩ := by simpa [readsReg, Fin.ext_iff] using hread
    refine influence_of_item State.fl rfl ?_
    simp only [State.setPc_fl, State.setFl_fl, changed_getReg, probe_getReg]
    rcases hk with rfl | rfl <;> simp [equalFlag, hab, hab.symm]
  | push hr =>
    cases hu
    refine influence_of_item (fun s => s.mem.read 1) rfl ?_
    by_cases h7 : k = 7
    · subst h7
      rw [changed_sp, probe_sp]
      refine push_influence ?_
      rw [State.getReg_setSp, probe_getReg]
      split_ifs <;> decide
    · obtain rfl : k = ⟨_, hr⟩ := Fin.ext (by simpa [readsReg, h7] using hread)
      simp only [State.setPc_mem, push_mem, State.setReg_mem, changed_sp, probe_sp, if_neg h7, read_one_write,
        State.getReg_setSp_of_ne _ _ h7, State.getReg_setReg_self, probe_getReg]
      decide
  | call hr =>
    cases hu
    by_cases h7 : k = 7
    · subst h7
      refine influence_of_item (fun s => s.mem.read 1) rfl ?_
      rw [changed_sp, probe_sp]
      exact push_influence (show (0 + 2 : Byte) ≠ 0 by decide)
    · refine influence_of_item State.pc rfl ?_
      obtain rfl : k = ⟨_, hr⟩ := Fin.ext (by simpa [readsReg, h7] using hread)
      simp only [State.setPc_pc, State.getReg_setSp_of_ne _ _ h7, State.getReg_setReg_self, probe_getReg]
      decide
  | ret =>
    cases hu
    obtain rfl : k = 7 := by simpa [readsReg] using hread
    refine influence_of_item State.pc rfl ?_
    rw [changed_sp, probe_sp]
    exact (by decide : (4 : Byte) ≠ 0)
  | pop hr =>
    cases hu
    obtain rfl : k = 7 := by simpa [readsReg] using hread
    have h2 : (probe f 2).memRead 2 = 0 := rfl
    have h3 : (probe f 2).memRead 3 = 4 := rfl
    refine influence_of_register ⟨_, hr⟩ ?_ ?_ <;>
      simp only [changed_sp, if_true, probe_sp, State.memRead_setReg, h2, h3, State.getReg_setPc,
        State.getReg_setSp, State.getReg_setReg_self] <;>
      split_ifs <;> decide
  | jmp hr =>
    cases hu
    obtain rfl : k = ⟨_, hr⟩ := Fin.ext (by simpa [readsReg] using hread)
    exact influence_of_item State.pc rfl (by simp)
  | jeqTaken hr hf =>
    obtain rfl : k = ⟨_, hr⟩ := Fin.ext (by simp_all [readsReg])
    cases hu with
    | jeqTaken => exact influence_of_item State.pc rfl (by simp)
    | jeqNotTaken _ hf' => exact absurd (hf.symm.trans hf') (by decide)
  | jneTaken hr hf =>
    obtain rfl : k = ⟨_, hr⟩ := Fin.ext (by simp_all [readsReg])
    cases hu with
    | jneTaken => exact influence_of_item State.pc rfl (by simp)
    | jneNotTaken _ hf' => exact absurd (hf.symm.trans hf') (by decide)
  | jeqNotTaken _ hf | jneNotTaken _ hf =>
    obtain rfl : f = _ := hf
    simp [readsReg] at hread

end Influence

/-- Settles O52: the completions from `probe` and its changed copy show each entry of the table. -/
theorem everyListedRegisterIsWrittenAndRead : Obligations.EveryListedRegisterIsWrittenAndRead := by
  refine ⟨fun i k hi hw => exists_write hi hw, fun i f k hi hread hcmp => ?_⟩
  have hsp : ((probe f 2).setReg k 3).sp = 2 ∨ ((probe f 2).setReg k 3).sp = 3 := by
    rw [changed_sp]
    split_ifs <;> simp
  obtain ⟨t, ht, het⟩ := probe_completes f (probe f 2) hi rfl rfl (.inl (probe_sp f 2))
  obtain ⟨u, hu, heu⟩ := probe_completes f ((probe f 2).setReg k 3) hi rfl rfl hsp
  exact ⟨probe f 2, t, u, 3, rfl, het, heu, ht.influence hu hread hcmp⟩

end Sys2Proof.Machine

/-! ### Memory: reads see the latest write -/

namespace Sys2Proof.Machine

/-- Any sequence of writes keeps the canonical form. -/
theorem Memory.wf_foldl_write {m : Memory} (hm : m.wf = true) (writes : List (Byte × Byte)) :
    (writes.foldl (fun m w => Memory.write m w.1.toNat w.2) m).wf = true :=
  List.foldlRecOn (motive := fun m => Memory.wf m = true) writes _ hm
    fun _ h w _ => Memory.wf_write h w.1.isLt w.2

/-- Settles O42, by induction on the writes from the latest back: the last one decides the read of its cell
and leaves every other cell to the writes before it. -/
theorem readReturnsTheLatestWrite : Obligations.ReadReturnsTheLatestWrite := by
  intro writes a
  induction writes using List.reverseRecOn with
  | nil => rfl
  | append_singleton ws w ih =>
    rw [List.foldl_concat, Memory.read_write (Memory.wf_foldl_write rfl ws), List.reverse_concat]
    by_cases h : w.1 = a
    · simp [h]
    · have hne : w.1.toNat ≠ a.toNat := fun e => h (BitVec.eq_of_toNat_eq e)
      rw [if_neg hne, List.find?_cons_of_neg (by simpa using h)]
      exact ih

section StoredByte
variable {s t : State} {i : Instr} {a v : Byte}

/-- An instruction that leaves no record has completed. -/
theorem Completes.of_exec (h : exec i s = .next t) (ht : t.fault = none) : Completes s i t := by
  rcases exec_next_cases h with ⟨r, _, rfl⟩ | hc
  · cases ht
  · exact hc

/-- The address a completed PUSH or CALL stores to is the decremented stack pointer. -/
theorem eq_of_pushAddress_ok (h : pushAddress s = .ok a) : a = s.sp - 1 := by
  rcases pushAddress_cases s with ⟨_, hq⟩ | ⟨_, hq⟩
  · exact Except.ok.inj (h.symm.trans hq)
  · cases h.symm.trans hq

/-- A completed PUSH leaves, in the cell below the old stack pointer, what its register holds afterwards. -/
theorem Completes.read_push {r : Byte} {k : RegIdx} (hc : Completes s (.push r) t) (hm : s.mem.wf = true)
    (hk : k.val = r.toNat) : t.mem.read (s.sp - 1).toNat = t.getReg k := by
  cases hc with
  | push hr =>
    obtain rfl : k = ⟨r.toNat, hr⟩ := Fin.ext hk
    exact Memory.read_write_self hm _ _

/-- A completed CALL leaves the return address in the cell below the old stack pointer. -/
theorem Completes.read_call {r : Byte} (hc : Completes s (.call r) t) (hm : s.mem.wf = true) :
    t.mem.read (s.sp - 1).toNat = s.pc + 2 := by
  cases hc
  exact Memory.read_write_self hm _ _

/-- The three bytes of a fetch that succeeded are those of memory from `pc` on (rule R111). -/
theorem eq_of_fetch_ok {w : Window} (h : fetch s = .ok w) :
    w = ⟨s.mem.read s.pc.toNat, s.mem.read (s.pc.toNat + 1), s.mem.read (s.pc.toNat + 2)⟩ := by
  rw [fetch] at h
  split_ifs at h
  exact (Except.ok.inj h).symm

end StoredByte

/-- Settles O43: the stored cell holds `v`, and each byte of the window is a read of its cell. -/
theorem storesAreSeenByLaterFetches : Obligations.StoresAreSeenByLaterFetches := by
  intro i r a v s t u w hm _ hi h ht ha hu hw
  have hc : Completes s i t := .of_exec h ht
  have hstored : u.mem.read a.toNat = v := by
    rw [hu, eq_of_pushAddress_ok ha]
    rcases hi with ⟨rfl, k, hk, rfl⟩ | ⟨rfl, rfl⟩
    · exact hc.read_push hm hk
    · exact hc.read_call hm
  rw [eq_of_fetch_ok hw, ← hstored]
  exact ⟨congrArg u.mem.read, congrArg u.mem.read, congrArg u.mem.read⟩

end Sys2Proof.Machine

/-! ### Dispatch by the whole opcode byte -/

namespace Sys2Proof

/-- With an injective map, the opcode byte of `m` makes the window `m`'s instruction. -/
theorem decodeWindow_opc {opc : OpcodeMap} (hinj : opc.Injective) (m : Mnemonic) (b1 b2 : Byte) :
    decodeWindow opc (opc m) b1 b2 = .ok (instrOf m b1 b2) :=
  decodeWindow_ok_iff.mpr ⟨m, recognise_opc hinj m, rfl⟩

/-- Rule R92: a byte that is the opcode of no mnemonic is refused by name. -/
theorem decodeWindow_unrecognized {opc : OpcodeMap} {b0 : Byte} (h : ∀ m, opc m ≠ b0) (b1 b2 : Byte) :
    decodeWindow opc b0 b1 b2 = .error (.unrecognizedOpcode b0) := by
  simp [decodeWindow, recognise_none_iff.mpr h]

/-- Rule R85: a format that declares no operand byte makes the same instruction of any B1 and B2. -/
theorem instrOf_eq_of_operandCount_zero {m : Mnemonic} (h : m.operandCount = 0) (b1 b2 c1 c2 : Byte) :
    instrOf m c1 c2 = instrOf m b1 b2 := by
  cases m with
  | ret | hlt => rfl
  | _ => cases h

/-- Rule R85: a format that declares one operand byte makes the same instruction of any B2. -/
theorem instrOf_eq_of_operandCount_one {m : Mnemonic} (h : m.operandCount = 1) (b1 b2 c2 : Byte) :
    instrOf m b1 c2 = instrOf m b1 b2 := by
  cases m with
  | prn | push | pop | call | jmp | jeq | jne => rfl
  | _ => cases h

/-- Settles O20: the same B0 is recognised as the same mnemonic, whose format ignores the changed bytes. -/
theorem undeclaredOperandBytesAreIgnored : Obligations.UndeclaredOperandBytesAreIgnored := by
  intro opc b0 b1 b2 c1 c2 i h
  obtain ⟨m, hm, rfl⟩ := decodeWindow_ok_iff.mp h
  rw [Instr.length, instrOf_mnemonic]
  refine ⟨fun hl => decodeWindow_ok_iff.mpr ⟨m, hm, ?_⟩, fun hl => decodeWindow_ok_iff.mpr ⟨m, hm, ?_⟩⟩
  · exact instrOf_eq_of_operandCount_zero (by omega) b1 b2 c1 c2
  · exact instrOf_eq_of_operandCount_one (by omega) b1 b2 c2

end Sys2Proof

namespace Sys2Proof.Machine

/-- Rule R116: a cycle whose opcode byte belongs to no mnemonic raises UnrecognizedOpcode. -/
theorem stepWith_unrecognized {opc : OpcodeMap} {s : State} (hr : s.run = .running) (hp : s.pc.toNat ≤ 253)
    (h : ∀ m, opc m ≠ s.b0) : stepWith opc s = .next (s.raise (unrecognizedOpcode s.b0)) := by
  simp [stepWith, hr, fetch_ok hp, decodeWindow_unrecognized h, execUnrecognized]

/-- Settles O19: the decoder's two answers, and the cycle that each of them makes. -/
theorem dispatchIsWholeByteEquality : Obligations.DispatchIsWholeByteEquality := by
  intro opc hinj
  refine ⟨fun b0 b1 b2 => ⟨?_, fun h => ?_, fun i h => (decodeWindow_ok h).1.symm⟩, fun s hr hp => ⟨?_, ?_⟩⟩
  · rintro m rfl
    exact decodeWindow_opc hinj m b1 b2
  · exact decodeWindow_unrecognized (fun m => (h m).symm) b1 b2
  · intro m hm
    refine stepWith_of_fetch hr (fetch_ok hp) ?_
    rw [State.b0, State.memRead, hm]
    exact decodeWindow_opc hinj m _ _
  · exact fun h => stepWith_unrecognized hr hp fun m => (h m).symm

end Sys2Proof.Machine

/-! ### The cycle: fetch, decode, and the first failing check -/

namespace Sys2Proof

/-- What the byte-list decoder reads from a fetch window, the window decoder reads too. -/
theorem decodeWindow_of_decode {opc : OpcodeMap} {b0 b1 b2 : Byte} {i : Instr} {rest : List Byte}
    (h : decode opc [b0, b1, b2] = .ok (i, rest)) : decodeWindow opc b0 b1 b2 = .ok i := by
  rw [decode_window] at h
  cases hd : decodeWindow opc b0 b1 b2 with
  | error e => simp [hd, Except.map] at h
  | ok j =>
    obtain ⟨rfl, -⟩ := Prod.mk.inj (Except.ok.inj (hd ▸ h))
    rfl

/-- The first operand byte that names no register, B1 before B2. -/
def Instr.firstBadOperand (i : Instr) : Option Byte := i.regOperands.find? fun v => decide (7 < v.toNat)

theorem Instr.firstBadOperand_eq_none {i : Instr} :
    i.firstBadOperand = none ↔ ∀ v ∈ i.regOperands, ¬ 7 < v.toNat := by
  simp [firstBadOperand]

end Sys2Proof

namespace Sys2Proof.Machine

/-- Settles O22: the fetch reads the three bytes, and both decoders agree on them. -/
theorem stepRunsTheDecodedInstruction : Obligations.StepRunsTheDecodedInstruction :=
  ⟨fun _ => rfl, fun _ _ _ _ hr hp hd => stepWith_of_fetch hr (fetch_ok hp) (decodeWindow_of_decode hd)⟩

/-- Rule R111: a window that leaves memory raises before any byte is read. -/
theorem fetch_error {s : State} (hp : 253 < s.pc.toNat) : fetch s = .error fetchWindowFault := by
  simp [fetch, hp]

/-- Rule R111: the cycle of a window that leaves memory takes the fetch-window fault. -/
theorem stepWith_fetchWindow {s : State} (hr : s.run = .running) (hp : 253 < s.pc.toNat) (opc : OpcodeMap) :
    stepWith opc s = .next (s.raise fetchWindowFault) := by
  simp [stepWith, hr, fetch_error hp]

/-- Settles O23: the two answers of the fetch. -/
theorem fetchReadsThreeBytesOrFaults : Obligations.FetchReadsThreeBytesOrFaults :=
  fun opc _ hr => ⟨fun hp => stepWith_fetchWindow hr hp opc, fetch_ok⟩

/-- Settles O24. -/
theorem unrecognizedOpcodeIsFatal : Obligations.UnrecognizedOpcodeIsFatal :=
  fun _ _ hr hp h => stepWith_unrecognized hr hp h

/-! The checks of rule R114 in their order. The operand checks come first: `exec_of_bad_operand` says that
their exception wins. The stack-pointer and the advance check never both fail for one instruction, so once the
operands have passed, `Raises` and `Completes` decide the rest. -/

section FirstFault
variable {opc : OpcodeMap} {s t : State} {i : Instr}

theorem firstFault_fetchWindow (hp : 253 < s.pc.toNat) :
    firstFault opc s = (s.raise fetchWindowFault).fault := by
  simp [firstFault, hp, fetchWindowFault]

theorem firstFault_unrecognized (hp : s.pc.toNat ≤ 253) (hm : ∀ m, opc m ≠ s.b0) :
    firstFault opc s = (s.raise (unrecognizedOpcode s.b0)).fault := by
  simp [firstFault, Nat.not_lt.mpr hp, decodeWindow_unrecognized hm, unrecognizedOpcode]

/-- A cycle whose check of its first operand byte fails raises that exception, whatever would follow. -/
theorem finish_bad_operand {r : Byte} (h : 7 < r.toNat) (f : RegIdx → Except Raise State) :
    finish s (reg s r >>= f) = .next (s.raise (outOfRange s .reg r.toNat)) := by
  simp [reg_error s h]

/-- Of two operand bytes, B1 is checked before B2. -/
theorem finish_bad_operands {a b v : Byte} (hv : [a, b].find? (fun v => decide (7 < v.toNat)) = some v)
    (f : RegIdx → RegIdx → Except Raise State) :
    finish s (reg s a >>= fun k => reg s b >>= f k) = .next (s.raise (outOfRange s .reg v.toNat)) := by
  rcases reg_cases s a with ⟨ha, hra⟩ | ⟨ha, hra⟩
  · obtain ⟨hb, rfl⟩ : 7 < b.toNat ∧ b = v := by simpa [Nat.not_lt.mpr (Nat.le_of_lt_succ ha)] using hv
    simp [hra, reg_error s hb]
  · obtain rfl : a = v := by simpa [ha] using hv
    simp [hra]

/-- The first operand byte that names no register raises, before the stack pointer and the advance are
looked at. -/
theorem exec_of_bad_operand {v : Byte} (hv : i.firstBadOperand = some v) :
    exec i s = .next (s.raise (outOfRange s .reg v.toNat)) := by
  cases i with
  | ret | hlt => cases hv
  | add a b | mul a b | cmp a b => exact finish_bad_operands hv _
  | _ r =>
    obtain ⟨h, rfl⟩ : 7 < r.toNat ∧ r = v := by
      simpa [Instr.firstBadOperand, Instr.regOperands] using hv
    exact finish_bad_operand h _

/-- With `pc` at most 253, an advance that fails is the one by 3 from 253. -/
theorem pc_eq_of_advance_fails (hp : s.pc.toNat ≤ 253) (h : 255 < s.pc.toNat + 3) : s.pc = 253 := by
  bv_omega

/-- After the operand checks, what an instruction raises is the failure of its own later check. -/
theorem Raises.later_check {r : Raise} (h : Raises s i r) (hp : s.pc.toNat ≤ 253)
    (hv : i.firstBadOperand = none) :
    (∃ k, stackFaultIndex s i = some k ∧ r = outOfRange s .mem k) ∨
    (stackFaultIndex s i = none ∧ ∃ k, advanceFaultIndex s i = some k ∧ r = outOfRange s .pc k) := by
  cases h with
  | operand hmem h7 => exact absurd h7 (Instr.firstBadOperand_eq_none.mp hv _ hmem)
  | push h | call h | ret h | pop h => exact .inl ⟨_, if_pos h, rfl⟩
  | ldi h | add h | mul h | cmp h =>
    have h253 : s.pc = 253 := pc_eq_of_advance_fails hp h
    exact .inr ⟨rfl, 256, if_pos ⟨rfl, h253⟩, by simp [h253]⟩
  | beyondFetch h => omega

/-- An instruction that completes has passed the stack-pointer and the advance check. -/
theorem Completes.later_checks (h : Completes s i t) :
    stackFaultIndex s i = none ∧ advanceFaultIndex s i = none := by
  have of_short (hl : decide (i.length = 3) = false) : advanceFaultIndex s i = none :=
    if_neg fun ha => of_decide_eq_false hl ha.1
  have of_long (hp : s.pc.toNat + 3 ≤ 255) : advanceFaultIndex s i = none :=
    if_neg fun ha => by simp [ha.2] at hp
  cases h with
  | ldi _ hp | add _ _ hp | mul _ _ hp | cmp _ _ hp => exact ⟨rfl, of_long hp⟩
  | push _ hs | call _ hs | pop _ hs | ret hs => exact ⟨if_neg hs, of_short rfl⟩
  | _ => exact ⟨rfl, of_short rfl⟩

section Decoded
variable (hp : s.pc.toNat ≤ 253)
  (hd : decodeWindow opc s.b0 (s.mem.read (s.pc.toNat + 1)) (s.mem.read (s.pc.toNat + 2)) = .ok i)
include hp hd

theorem firstFault_operand {v : Byte} (hv : i.firstBadOperand = some v) :
    firstFault opc s = (s.raise (outOfRange s .reg v.toNat)).fault := by
  rw [Instr.firstBadOperand] at hv
  simp [firstFault, Nat.not_lt.mpr hp, hd, hv, outOfRange]

/-- After the operand checks, the stack-pointer check comes before the advance check. -/
theorem firstFault_of_good_operands (hv : i.firstBadOperand = none) :
    firstFault opc s =
      (((stackFaultIndex s i).map (outOfRange s .mem)).or
        ((advanceFaultIndex s i).map (outOfRange s .pc))).bind fun r => (s.raise r).fault := by
  rw [Instr.firstBadOperand] at hv
  cases hs : stackFaultIndex s i <;> cases ha : advanceFaultIndex s i <;>
    simp [firstFault, Nat.not_lt.mpr hp, hd, hv, hs, ha, outOfRange]

/-- The record that an instruction leaves is that of the first failing check. -/
theorem exec_fault_eq_firstFault (hf : s.fault = none) (h : exec i s = .next t) :
    t.fault = firstFault opc s := by
  cases hv : i.firstBadOperand with
  | some v =>
    obtain rfl := Host.Outcome.next.inj ((exec_of_bad_operand hv).symm.trans h)
    exact (firstFault_operand hp hd hv).symm
  | none =>
    rw [firstFault_of_good_operands hp hd hv]
    rcases exec_next_cases h with ⟨r, hr, rfl⟩ | hc
    · rcases hr.later_check hp hv with ⟨k, hs, rfl⟩ | ⟨hs, k, ha, rfl⟩
      · simp [hs]
      · simp [hs, ha]
    · obtain ⟨hs, ha⟩ := hc.later_checks
      simp [hs, ha, hc.fault_eq, hf]

end Decoded

end FirstFault

/-- Settles O29: the fetch window, the opcode, and then the checks of the decoded instruction. -/
theorem firstFailingCheckIsTheOneRecorded : Obligations.FirstFailingCheckIsTheOneRecorded := by
  intro opc s t hr hf h
  rcases stepWith_cases opc s with ⟨hh, _⟩ | ⟨_, hp, he⟩ | ⟨_, hp, hm, he⟩ | ⟨_, hp, i, hd, he⟩
  · cases hr.symm.trans hh
  · obtain rfl := Host.Outcome.next.inj (he.symm.trans h)
    exact (firstFault_fetchWindow hp).symm
  · obtain rfl := Host.Outcome.next.inj (he.symm.trans h)
    exact (firstFault_unrecognized hp hm).symm
  · exact exec_fault_eq_firstFault hp hd hf (he.symm.trans h)

end Sys2Proof.Machine

/-! ### LDI and PRN

One lemma for the exception of a bad B1, which every instruction with a register operand shares; after it the
case lemma of each meaning leaves one outcome per clause. -/

namespace Sys2Proof

/-- B1 is the first operand that the checks look at. -/
theorem Instr.firstBadOperand_of_head {i : Instr} {r : Byte} (hi : i.regOperands.head? = some r)
    (h : 7 < r.toNat) : i.firstBadOperand = some r := by
  obtain ⟨rest, hl⟩ := List.head?_eq_some_iff.mp hi
  simp [firstBadOperand, hl, h]

end Sys2Proof

namespace Sys2Proof.Machine

/-- An OutOfRangeAccess of the cycle that starts in `s` leaves the state that the statements write out. -/
theorem State.raise_outOfRange (s : State) (kind : AccessKind) (index : Int) :
    s.raise (outOfRange s kind index) = s.accessFaulted kind index := rfl

/-- Rules R83 and R113: a B1 that names no register makes any instruction that declares it as one raise. -/
theorem exec_of_bad_first_operand {i : Instr} {r : Byte} {s : State} (hi : i.regOperands.head? = some r)
    (h : 7 < r.toNat) : exec i s = .next (s.accessFaulted .reg r.toNat) := by
  rw [exec_of_bad_operand (Instr.firstBadOperand_of_head hi h), State.raise_outOfRange]

/-- At 253, the last `pc` from which a window can be fetched, the advance by 3 raises with index 256. -/
theorem State.raise_advance_three {s : State} (h : s.pc = 253) :
    s.raise (outOfRange s .pc ((s.pc.toNat + 3 : Nat) : Int)) = s.accessFaulted .pc 256 := by
  simp [State.raise_outOfRange, h]

/-- Settles O3: after the check of B1, `pc` decides between the failed advance and the write. -/
theorem ldiLoadsTheImmediate : Obligations.LdiLoadsTheImmediate := by
  intro r v s
  refine ⟨exec_of_bad_first_operand rfl, fun h hp => ?_, fun h hp => ?_,
    fun _ hinj => decodeWindow_opc hinj .ldi r v⟩
  · rcases execLdi_cases s r v with ⟨h7, _⟩ | ⟨_, _, he⟩ | ⟨_, hn, _⟩
    · omega
    · exact State.raise_advance_three hp ▸ he
    · simp [hp] at hn
  · rcases execLdi_cases s r v with ⟨h7, _⟩ | ⟨_, hn, _⟩ | ⟨_, _, he⟩
    · omega
    · omega
    · exact he

/-- Settles O4: after the check of B1, the advance by 2 always fits, since `pc` is at most 253. -/
theorem prnEmitsTheRegister : Obligations.PrnEmitsTheRegister := by
  intro r s
  refine ⟨exec_of_bad_first_operand rfl, fun h hp => ?_, fun _ b2 hinj => decodeWindow_opc hinj .prn r b2⟩
  rcases execPrn_cases s r with ⟨h7, _⟩ | ⟨_, hn, _⟩ | ⟨_, _, he⟩
  · omega
  · omega
  · exact he

end Sys2Proof.Machine

/-! ### ADD, MUL and CMP

The three share one cycle: what it does when its checks pass and when its advance fails is said once, for every
selector. The integer laws of the results are laws of `alu`. -/

namespace Sys2Proof.Machine

section AluCycle
variable (op : AluOp) {a b : Byte} {s : State}

/-- Rules R113 and R114: after a good B1, a B2 that names no register raises. -/
theorem exec_of_bad_second_operand {i : Instr} (hi : i.regOperands = [a, b]) (ha : a.toNat < 8)
    (hb : 7 < b.toNat) : exec i s = .next (s.accessFaulted .reg b.toNat) := by
  have hbad : i.firstBadOperand = some b := by
    simp [Instr.firstBadOperand, hi, hb, Nat.le_of_lt_succ ha]
  rw [exec_of_bad_operand hbad, State.raise_outOfRange]

/-- Rule R115: with good operands, the cycle at `pc` = 253 fails its advance. -/
theorem aluCycle_at_253 (ha : a.toNat < 8) (hb : b.toNat < 8) (hp : s.pc = 253) :
    aluCycle op a b s = .next (s.accessFaulted .pc 256) := by
  rcases aluCycle_cases s op a b with ⟨h7, _⟩ | ⟨_, h7, _⟩ | ⟨_, _, _, he⟩ | ⟨_, _, hn, _⟩
  · omega
  · omega
  · exact State.raise_advance_three hp ▸ he
  · simp [hp] at hn

/-- Rule R140: with good operands and room to advance, the cycle writes the ALU's output. -/
theorem aluCycle_completes (ha : a.toNat < 8) (hb : b.toNat < 8) (hp : s.pc.toNat ≤ 252) :
    aluCycle op a b s = .next ((writeAluResult s ⟨a.toNat, ha⟩
      (alu op (s.getReg ⟨a.toNat, ha⟩) (s.getReg ⟨b.toNat, hb⟩))).setPc (s.pc + 3)) := by
  rcases aluCycle_cases s op a b with ⟨h7, _⟩ | ⟨_, h7, _⟩ | ⟨_, _, hn, _⟩ | ⟨_, _, _, he⟩
  · omega
  · omega
  · omega
  · exact he

end AluCycle

/-! ### The integer laws of the ALU -/

/-- A byte is made of an integer's low 8 bits (decision D1). -/
theorem ofNat_mod_256 (n : Nat) : BitVec.ofNat 8 (n % 256) = BitVec.ofNat 8 n :=
  BitVec.eq_of_toNat_eq (by simp)

/-- Rule R149: no operation of the ALU depends on the order of its operands. -/
theorem alu_comm (op : AluOp) (a b : Byte) : alu op a b = alu op b a := by
  cases op with
  | add => simp [alu, Nat.add_comm]
  | mul => simp [alu, Nat.mul_comm]
  | cmp => simp [alu, equalFlag, eq_comm]

/-- A byte plus a byte is below 512, so the low byte of the sum misses at most one 256. -/
theorem add_low_byte (a b : Byte) :
    (BitVec.ofNat 8 (a.toNat + b.toNat)).toNat = a.toNat + b.toNat ∨
    (BitVec.ofNat 8 (a.toNat + b.toNat)).toNat + 256 = a.toNat + b.toNat := by
  have ha := a.isLt
  have hb := b.isLt
  rw [BitVec.toNat_ofNat]
  omega

/-- A byte times a byte is at most 255 * 255, so the high byte of the product is at most 254. -/
theorem mul_high_byte_le (a b : Byte) : a.toNat * b.toNat / 256 ≤ 254 := by
  have h : a.toNat * b.toNat ≤ 255 * 255 :=
    Nat.mul_le_mul (Nat.le_of_lt_succ a.isLt) (Nat.le_of_lt_succ b.isLt)
  omega

/-- Settles O16: the high part of a product is its quotient by 256. -/
theorem aluKeepsTheLowByte : Obligations.AluKeepsTheLowByte := by
  refine ⟨fun a b => ⟨_, rfl, add_low_byte a b⟩,
    fun a b => ⟨_, rfl, a.toNat * b.toNat / 256, mul_high_byte_le a b, ?_⟩, fun v => ?_⟩
  · rw [BitVec.toNat_ofNat]
    exact Nat.mod_add_div _ 256
  · simp [alu]

/-! ### The three instructions -/

/-- Settles O5. -/
theorem addKeepsTheLowByteOfTheSum : Obligations.AddKeepsTheLowByteOfTheSum := by
  intro a b s
  refine ⟨exec_of_bad_first_operand rfl, exec_of_bad_second_operand rfl, aluCycle_at_253 .add,
    fun ha hb hp => ?_, fun _ hinj => decodeWindow_opc hinj .add a b⟩
  rw [ofNat_mod_256]
  exact aluCycle_completes .add ha hb hp

/-- Settles O6. -/
theorem mulKeepsTheLowByteOfTheProduct : Obligations.MulKeepsTheLowByteOfTheProduct := by
  intro a b s
  refine ⟨exec_of_bad_first_operand rfl, exec_of_bad_second_operand rfl, aluCycle_at_253 .mul,
    fun ha hb hp => ?_, fun _ hinj => decodeWindow_opc hinj .mul a b⟩
  rw [ofNat_mod_256]
  exact aluCycle_completes .mul ha hb hp

/-- Settles O7. -/
theorem cmpWritesTheEqualityFlag : Obligations.CmpWritesTheEqualityFlag := by
  intro a b s
  exact ⟨exec_of_bad_first_operand rfl, exec_of_bad_second_operand rfl, aluCycle_at_253 .cmp,
    aluCycle_completes .cmp, fun _ hinj => decodeWindow_opc hinj .cmp a b⟩

/-- Rule R149: with its operands swapped, the cycle writes the same output. -/
theorem aluCycle_swapped (op : AluOp) {a b : Byte} {s : State} (ha : a.toNat < 8) (hb : b.toNat < 8)
    (hp : s.pc.toNat ≤ 252) :
    aluCycle op b a s = .next ((writeAluResult s ⟨b.toNat, hb⟩
      (alu op (s.getReg ⟨a.toNat, ha⟩) (s.getReg ⟨b.toNat, hb⟩))).setPc (s.pc + 3)) := by
  rw [alu_comm]
  exact aluCycle_completes op hb ha hp

/-- Settles O46: in either order the destination receives the one output of the ALU. -/
theorem addMulCmpAreSymmetric : Obligations.AddMulCmpAreSymmetric := by
  intro a b s ha hb _ hp
  refine ⟨⟨_, _, aluCycle_completes .add ha hb hp, aluCycle_swapped .add ha hb hp, ?_⟩,
    ⟨_, _, aluCycle_completes .mul ha hb hp, aluCycle_swapped .mul ha hb hp, ?_⟩,
    ⟨_, _, aluCycle_completes .cmp ha hb hp, aluCycle_swapped .cmp ha hb hp, ?_⟩⟩
  · simp [alu, writeAluResult]
  · simp [alu, writeAluResult]
  · rfl

end Sys2Proof.Machine

/-! ### PUSH, POP and the stack pointer

The cycles of PUSH and POP once their checks are decided, and the moves of the stack pointer as exact integers.
After a PUSH the stack top holds what the pushed register holds, R7 included, so a POP of the same register moves
the stack pointer and `pc` alone. -/

namespace Sys2Proof.Machine

/-- Rule R163: a decrement that passed its check is exact. -/
theorem toNat_decremented {v : Byte} (h : v ≠ 0) : (v - 1).toNat + 1 = v.toNat := by bv_omega

/-- The address of a push as the statements write it. -/
theorem toNat_sub_one {v : Byte} (h : v ≠ 0) : (v - 1).toNat = v.toNat - 1 :=
  Nat.eq_sub_of_add_eq (toNat_decremented h)

/-- Rule R163: an increment that passed its check is exact. -/
theorem toNat_incremented {v : Byte} (h : v ≠ 255) : (v + 1).toNat = v.toNat + 1 := by bv_omega

/-- The later of two writes to the stack pointer is the one that stays. -/
theorem State.setSp_setSp (s : State) (v w : Byte) : (s.setSp v).setSp w = s.setSp w :=
  State.setReg_setReg_self s spIndex v w

/-- Writing back what a register holds changes nothing. -/
theorem State.setReg_getReg_self (s : State) (k : RegIdx) : s.setReg k (s.getReg k) = s := by
  simp [State.setReg, State.getReg]

/-- Putting the stack pointer back after a push restores every register. -/
theorem push_setSp_x (s : State) (a : Byte) (f : State → Byte) : ((push s a f).setSp s.sp).x = s.x :=
  calc ((push s a f).setSp s.sp).x
    _ = ((s.setSp a).setSp s.sp).x := rfl
    _ = (s.setSp s.sp).x := by rw [State.setSp_setSp]
    _ = s.x := congrArg State.x (State.setReg_getReg_self s spIndex)

section StackCycle
variable {r : Byte} {s : State} (h : r.toNat < 8)
include h

/-- Rule R160: PUSH with a good operand raises when R7 is 0. -/
theorem execPush_at_bottom (hs : s.sp = 0) : execPush r s = .next (s.accessFaulted .mem (-1)) := by
  rcases execPush_cases s r with ⟨h7, _⟩ | ⟨_, _, he⟩ | ⟨_, hn, _⟩ | ⟨_, hn, _⟩
  · omega
  · exact he
  · exact absurd hs hn
  · exact absurd hs hn

/-- Rule R160: PUSH with a good operand, R7 not 0 and room to advance completes. -/
theorem execPush_completes (hs : s.sp ≠ 0) (hp : s.pc.toNat ≤ 253) :
    execPush r s = .next ((push s (s.sp - 1) fun t => t.getReg ⟨r.toNat, h⟩).setPc (s.pc + 2)) := by
  rcases execPush_cases s r with ⟨h7, _⟩ | ⟨_, hn, _⟩ | ⟨_, _, hn, _⟩ | ⟨_, _, _, he⟩
  · omega
  · exact absurd hn hs
  · omega
  · exact he

/-- Rule R162: POP with a good operand raises when the value it would increment is 255. -/
theorem execPop_at_top (hs : (if r = 7 then s.memRead s.sp else s.sp) = 255) :
    execPop r s = .next (s.accessFaulted .mem 256) := by
  rcases execPop_cases s r with ⟨h7, _⟩ | ⟨_, _, he⟩ | ⟨_, hn, _⟩ | ⟨_, hn, _⟩
  · omega
  · exact he
  · exact absurd hs hn
  · exact absurd hs hn

/-- Rule R162: POP with a good operand, room for the increment and room to advance completes. -/
theorem execPop_completes (hs : (if r = 7 then s.memRead s.sp else s.sp) ≠ 255) (hp : s.pc.toNat ≤ 253) :
    execPop r s = .next (((s.setReg ⟨r.toNat, h⟩ (s.memRead s.sp)).setSp
      ((if r = 7 then s.memRead s.sp else s.sp) + 1)).setPc (s.pc + 2)) := by
  rcases execPop_cases s r with ⟨h7, _⟩ | ⟨_, hn, _⟩ | ⟨_, _, hn, _⟩ | ⟨_, _, _, he⟩
  · omega
  · exact absurd hn hs
  · omega
  · exact he

end StackCycle

/-- Settles O8: the address of the store is the exact integer below R7. -/
theorem pushDecrementsThenStores : Obligations.PushDecrementsThenStores := by
  intro r s
  refine ⟨exec_of_bad_first_operand rfl, execPush_at_bottom, fun h hs hp => ?_,
    fun _ b2 hinj => decodeWindow_opc hinj .push r b2⟩
  rw [← toNat_sub_one hs]
  exact execPush_completes h hs hp

/-- Settles O9: the value to be incremented is R7 for r below 7 and the loaded byte for r = 7. -/
theorem popLoadsThenIncrements : Obligations.PopLoadsThenIncrements := by
  intro r s
  have hne : r.toNat < 7 → r ≠ 7 := by
    rintro h rfl
    exact absurd h (by decide)
  refine ⟨exec_of_bad_first_operand rfl, fun h hs => ?_, fun h hs hp => ?_, ?_, ?_,
    fun _ b2 hinj => decodeWindow_opc hinj .pop r b2⟩
  · exact execPop_at_top (Nat.lt_succ_of_lt h) (by rwa [if_neg (hne h)])
  · have he := execPop_completes (Nat.lt_succ_of_lt h) (by rwa [if_neg (hne h)]) hp
    rwa [if_neg (hne h)] at he
  · rintro rfl hs
    exact execPop_at_top (by decide) hs
  · rintro rfl hs hp
    refine (execPop_completes (r := 7) (by decide) hs hp).trans ?_
    exact congrArg (fun t : State => Host.Outcome.next (t.setPc (s.pc + 2))) (State.setSp_setSp s _ _)

section StackPointer
variable {s t : State} {r : Byte}

/-- Rule R163: a completed PUSH leaves R7 exactly one lower. -/
theorem Completes.sp_of_push (hc : Completes s (.push r) t) : t.sp.toNat + 1 = s.sp.toNat := by
  cases hc with
  | push _ hs =>
    rw [State.sp_setPc, sp_push]
    exact toNat_decremented hs

/-- Rule R163: a completed CALL leaves R7 exactly one lower. -/
theorem Completes.sp_of_call (hc : Completes s (.call r) t) : t.sp.toNat + 1 = s.sp.toNat := by
  cases hc with
  | call _ hs =>
    rw [State.sp_setPc, sp_push]
    exact toNat_decremented hs

/-- Rules R162 and R163: a completed POP leaves R7 exactly one above the value it increments. -/
theorem Completes.sp_of_pop (hc : Completes s (.pop r) t) :
    t.sp.toNat = (if r = 7 then s.memRead s.sp else s.sp).toNat + 1 := by
  cases hc with
  | pop _ hs =>
    rw [State.sp_setPc, State.sp_setSp]
    exact toNat_incremented hs

/-- Rule R163: a completed RET leaves R7 exactly one higher. -/
theorem Completes.sp_of_ret (hc : Completes s .ret t) : t.sp.toNat = s.sp.toNat + 1 := by
  cases hc with
  | ret hs =>
    rw [State.sp_setPc, State.sp_setSp]
    exact toNat_incremented hs

end StackPointer

/-- Settles O41: with no record the instruction has completed, and R7 is the stack pointer. -/
theorem stackPointerNeverWraps : Obligations.StackPointerNeverWraps := by
  intro i s t _ h ht
  have hc : Completes s i t := .of_exec h ht
  refine ⟨?_, ?_, ?_, ?_⟩
  · rintro r (rfl | rfl)
    · exact hc.sp_of_push
    · exact hc.sp_of_call
  · rintro r rfl h7
    have hsp := hc.sp_of_pop
    rwa [if_neg h7] at hsp
  · rintro rfl
    exact hc.sp_of_pop
  · rintro rfl
    exact hc.sp_of_ret

/-! ### PUSH then POP -/

/-- A POP of a stack top that equals its register moves the stack pointer and `pc` alone. -/
theorem execPop_of_top_eq {r : Byte} {s : State} (h : r.toNat < 8)
    (htop : s.memRead s.sp = s.getReg ⟨r.toNat, h⟩) (hs : s.sp ≠ 255) (hp : s.pc.toNat ≤ 253) :
    execPop r s = .next ((s.setSp (s.sp + 1)).setPc (s.pc + 2)) := by
  have hsp : (if r = 7 then s.memRead s.sp else s.sp) = s.sp := by
    rw [← sp_loaded s r h, htop, State.setReg_getReg_self]
  have he := execPop_completes h (by rwa [hsp]) hp
  rwa [hsp, htop, State.setReg_getReg_self] at he

/-- Rule R164: after a PUSH, a POP of the same register loads what it already holds and takes the decrement
back. -/
theorem Completes.execPop_after_push {r : Byte} {s t : State} (hc : Completes s (.push r) t)
    (h : r.toNat < 8) (hm : s.mem.wf = true) (hp : t.pc.toNat ≤ 253) :
    execPop r t = .next ((t.setSp s.sp).setPc (t.pc + 2)) := by
  have hsp : t.sp.toNat + 1 = s.sp.toNat := hc.sp_of_push
  have hcell : t.sp = s.sp - 1 := by bv_omega
  have hback : t.sp + 1 = s.sp := by bv_omega
  have htop : t.memRead t.sp = t.getReg ⟨r.toNat, h⟩ := by
    rw [hcell]
    exact hc.read_push hm rfl
  rw [execPop_of_top_eq h htop (by bv_omega) hp, hback]

/-- Settles O44: the POP's writes put the stack pointer back, and the store stays. -/
theorem pushThenPopRestores : Obligations.PushThenPopRestores := by
  intro r s h hm hs hp
  have hpc : (s.pc + 2).toNat ≤ 253 := by bv_omega
  have hc : Completes s (.push r) _ := .push h hs (by omega)
  refine ⟨_, _, execPush_completes h hs (by omega), hc.execPop_after_push h hm hpc,
    push_setSp_x s _ fun t => t.getReg ⟨r.toNat, h⟩, rfl, rfl, ?_⟩
  rw [← toNat_sub_one hs]
  exact hc.read_push hm rfl

end Sys2Proof.Machine

/-! ### CALL, RET, JMP, JEQ and JNE

The cycles of the five control transfers once their checks are decided; JEQ and JNE share one, which the condition
on FL selects. A RET with the stack pointer one below an earlier value puts that value back, which is what happens
after a CALL. -/

namespace Sys2Proof.Machine

section Branch
variable {taken : Bool} {r : Byte} {s : State} (h : r.toNat < 8)
include h

/-- Rules R176 and R178: a taken jump with a good operand goes to its register's value. -/
theorem branchCycle_taken (ht : taken = true) :
    branchCycle taken r s = .next (s.setPc (s.getReg ⟨r.toNat, h⟩)) := by
  subst ht
  rcases branchCycle_cases s true r with ⟨h7, _⟩ | ⟨_, _, he⟩ | ⟨_, ⟨⟩, _⟩ | ⟨_, ⟨⟩, _⟩
  · omega
  · exact he

/-- Rules R176 and R178: a jump not taken, with a good operand and room to advance, goes on by 2. -/
theorem branchCycle_not_taken (ht : taken = false) (hp : s.pc.toNat ≤ 253) :
    branchCycle taken r s = .next (s.setPc (s.pc + 2)) := by
  subst ht
  rcases branchCycle_cases s false r with ⟨h7, _⟩ | ⟨_, ⟨⟩, _⟩ | ⟨_, _, hn, _⟩ | ⟨_, _, _, he⟩
  · omega
  · omega
  · exact he

theorem execJeq_taken (hf : s.fl = 1) : execJeq r s = .next (s.setPc (s.getReg ⟨r.toNat, h⟩)) :=
  branchCycle_taken h ((takenIfEqual_iff _).mpr hf)

theorem execJeq_not_taken (hf : s.fl ≠ 1) (hp : s.pc.toNat ≤ 253) :
    execJeq r s = .next (s.setPc (s.pc + 2)) :=
  branchCycle_not_taken h (Bool.eq_false_iff.mpr (mt (takenIfEqual_iff _).mp hf)) hp

theorem execJne_taken (hf : s.fl = 0) : execJne r s = .next (s.setPc (s.getReg ⟨r.toNat, h⟩)) :=
  branchCycle_taken h (beq_iff_eq.mpr hf)

theorem execJne_not_taken (hf : s.fl ≠ 0) (hp : s.pc.toNat ≤ 253) :
    execJne r s = .next (s.setPc (s.pc + 2)) :=
  branchCycle_not_taken h (beq_eq_false_iff_ne.mpr hf) hp

end Branch

section Transfer
variable {r : Byte} {s : State}

/-- Rule R174: JMP with a good operand goes to its register's value. -/
theorem execJmp_completes (h : r.toNat < 8) : execJmp r s = .next (s.setPc (s.getReg ⟨r.toNat, h⟩)) := by
  rcases execJmp_cases s r with ⟨h7, _⟩ | ⟨_, he⟩
  · omega
  · exact he

/-- Rule R170: CALL with a good operand raises when R7 is 0. -/
theorem execCall_at_bottom (h : r.toNat < 8) (hs : s.sp = 0) :
    execCall r s = .next (s.accessFaulted .mem (-1)) := by
  rcases execCall_cases s r with ⟨h7, _⟩ | ⟨_, _, he⟩ | ⟨_, hn, _⟩ | ⟨_, hn, _⟩
  · omega
  · exact he
  · exact absurd hs hn
  · exact absurd hs hn

/-- Rule R170: CALL with a good operand, R7 not 0 and room for the return address completes. -/
theorem execCall_completes (h : r.toNat < 8) (hs : s.sp ≠ 0) (hp : s.pc.toNat ≤ 253) :
    execCall r s = .next ((push s (s.sp - 1) fun _ => s.pc + 2).setPc
      ((s.setSp (s.sp - 1)).getReg ⟨r.toNat, h⟩)) := by
  rcases execCall_cases s r with ⟨h7, _⟩ | ⟨_, hn, _⟩ | ⟨_, _, hn, _⟩ | ⟨_, _, _, he⟩
  · omega
  · exact absurd hn hs
  · omega
  · exact he

/-- Rule R172: RET raises when R7 is 255. -/
theorem execRet_at_top (hs : s.sp = 255) : execRet s = .next (s.accessFaulted .mem 256) := by
  rcases execRet_cases s with ⟨_, he⟩ | ⟨hn, _⟩
  · exact he
  · exact absurd hs hn

/-- Rule R172: RET completes when R7 is not 255. -/
theorem execRet_completes (hs : s.sp ≠ 255) :
    execRet s = .next ((s.setSp (s.sp + 1)).setPc (s.memRead s.sp)) := by
  rcases execRet_cases s with ⟨hn, _⟩ | ⟨_, he⟩
  · exact absurd hn hs
  · exact he

end Transfer

/-- Settles O12. -/
theorem jmpSetsThePc : Obligations.JmpSetsThePc := by
  intro r s
  exact ⟨exec_of_bad_first_operand rfl, execJmp_completes, fun _ b2 hinj => decodeWindow_opc hinj .jmp r b2⟩

/-- Settles O13. -/
theorem jeqJumpsWhenTheFlagIsOne : Obligations.JeqJumpsWhenTheFlagIsOne := by
  intro r s
  exact ⟨exec_of_bad_first_operand rfl, execJeq_taken, execJeq_not_taken,
    fun _ b2 hinj => decodeWindow_opc hinj .jeq r b2⟩

/-- Settles O14: FL is one bit, so it selects JEQ or JNE. -/
theorem jneJumpsWhenTheFlagIsZero : Obligations.JneJumpsWhenTheFlagIsZero := by
  intro r s
  refine ⟨exec_of_bad_first_operand rfl, execJne_taken, execJne_not_taken, fun h hp => ?_,
    fun _ b2 hinj => decodeWindow_opc hinj .jne r b2⟩
  rcases flag_cases s.fl with hf | hf
  · exact ⟨_, _, execJeq_not_taken h (by simp [hf]) hp, execJne_taken h hf, .inr ⟨rfl, rfl⟩⟩
  · exact ⟨_, _, execJeq_taken h hf, execJne_not_taken h (by simp [hf]) hp, .inl ⟨rfl, rfl⟩⟩

/-- The return address as rule R170 writes it. -/
theorem ofNat_toNat_add_two (v : Byte) : BitVec.ofNat 8 (v.toNat + 2) = v + 2 := by
  simp [BitVec.ofNat_add]

/-- Settles O10: the address of the store is the exact integer below R7. -/
theorem callPushesTheReturnAddressAndJumps : Obligations.CallPushesTheReturnAddressAndJumps := by
  intro r s
  refine ⟨exec_of_bad_first_operand rfl, execCall_at_bottom, fun h hs hp => ?_,
    fun _ b2 hinj => decodeWindow_opc hinj .call r b2⟩
  rw [← toNat_sub_one hs, ofNat_toNat_add_two]
  exact execCall_completes h hs hp

/-- Settles O11. -/
theorem retPopsIntoThePc : Obligations.RetPopsIntoThePc := by
  intro s
  exact ⟨execRet_at_top, execRet_completes, fun _ b1 b2 hinj => decodeWindow_opc hinj .ret b1 b2⟩

/-! ### CALL then RET -/

/-- Rule R180: a RET with the stack pointer one below `v` puts `v` back and goes to the address on the stack. -/
theorem execRet_of_sp_eq_sub_one {u : State} {v a : Byte} (hv : v ≠ 0) (hsp : u.sp = v - 1)
    (hcell : u.memRead (v - 1) = a) : execRet u = .next ((u.setSp v).setPc a) := by
  have htop : u.sp ≠ 255 := by bv_omega
  have hback : u.sp + 1 = v := by bv_omega
  rw [execRet_completes htop, hback, hsp, hcell]

/-- Settles O45: the CALL leaves the stack pointer one below its old value and the return address there. -/
theorem callThenRetReturns : Obligations.CallThenRetReturns := by
  intro r s h hm hs hp
  have hr : r.toNat < 8 := Nat.lt_succ_of_lt h
  have hpc : (s.pc + 2).toNat = s.pc.toNat + 2 := toNat_advanced (n := 2) (by omega)
  have hc : Completes s (.call r) _ := .call hr hs (by omega)
  have htsp := sp_push s (s.sp - 1) fun _ => s.pc + 2
  have hcell := hc.read_call hm
  refine ⟨_, execCall_completes hr hs hp, fun u hsp htop => ?_, ?_⟩
  · have husp : u.sp = s.sp - 1 := hsp.trans htsp
    exact ⟨_, execRet_of_sp_eq_sub_one hs husp (husp ▸ htop), hpc, State.sp_setSp u s.sp⟩
  · refine ⟨_, execRet_of_sp_eq_sub_one hs htsp hcell, hpc, push_setSp_x s _ fun _ => s.pc + 2, ?_⟩
    rw [← toNat_sub_one hs]
    exact hcell

end Sys2Proof.Machine

/-! ### HLT -/

namespace Sys2Proof.Machine

/-- Rule R190: a cycle of HLT is the halt alone, with no check and no advance of `pc`. -/
theorem exec_hlt (s : State) : exec .hlt s = .next s.halt := execHlt_eq s

/-- Settles O15. -/
theorem hltHaltsCleanly : Obligations.HltHaltsCleanly :=
  ⟨exec_hlt, fun _ b1 b2 hinj => decodeWindow_opc hinj .hlt b1 b2⟩

end Sys2Proof.Machine

/-! ### Exceptions: the table of sites

A cycle that starts RUNNING takes the exception of a listed site, or completes the instruction it decoded
(`stepWith_running_cases`). The three statements read this one inversion. -/

namespace Sys2Proof

/-- With an injective map, the opcode byte of `m` decodes to no other mnemonic's instruction. -/
theorem eq_instrOf_of_decodeWindow {opc : OpcodeMap} {b0 b1 b2 : Byte} {i : Instr} (hinj : opc.Injective)
    (hd : decodeWindow opc b0 b1 b2 = .ok i) {m : Mnemonic} (hm : b0 = opc m) : i = instrOf m b1 b2 :=
  Except.ok.inj (hd.symm.trans (hm ▸ decodeWindow_opc hinj m b1 b2))

end Sys2Proof

namespace Sys2Proof.Machine

section Sites
variable {opc : OpcodeMap} {s t : State} {i : Instr}

/-- Rule R203: no site of the table records cause 3. -/
theorem FaultSite.cause_ne {f : FaultRecord} (h : FaultSite opc s f) : f.cause ≠ .unsupportedOperation := by
  cases h <;> exact fun hc => nomatch hc

/-- Rule R29: of the completions only HLT's changes RUN. -/
theorem Completes.run_eq (h : Completes s i t) : t.run = s.run ∨ (i = .hlt ∧ t = s.halt) := by
  cases h with
  | hlt => exact .inr ⟨rfl, rfl⟩
  | _ => exact .inl (by simp)

/-- Rule R113: an instruction that completes has passed the check of each operand byte. -/
theorem Completes.operand_lt (h : Completes s i t) {v : Byte} (hv : v ∈ i.regOperands) : v.toNat < 8 := by
  cases h with
  | add ha hb | mul ha hb | cmp ha hb =>
    rcases List.mem_pair.mp hv with rfl | rfl
    · exact ha
    · exact hb
  | ret | hlt => cases hv
  | ldi hr | prn hr | push hr | pop hr | call hr | jmp hr | jeqTaken hr | jeqNotTaken hr | jneTaken hr
  | jneNotTaken hr =>
    obtain rfl := List.mem_singleton.mp hv
    exact hr

/-- Rule R202, the last row: a 3-byte instruction's advance fails at `pc` = 253 only, with index 256. -/
theorem FaultSite.of_failed_advance (hp : s.pc.toNat ≤ 253) (h : 255 < s.pc.toNat + 3)
    (hi : s.b0 = opc .ldi ∨ s.b0 = opc .add ∨ s.b0 = opc .mul ∨ s.b0 = opc .cmp) :
    FaultSite opc s
      ⟨.outOfRangeAccess, s.pc, some s.b0, some .pc, some ((s.pc.toNat + 3 : Nat) : Int)⟩ := by
  have h253 : s.pc = 253 := pc_eq_of_advance_fails hp h
  have hindex : ((s.pc.toNat + 3 : Nat) : Int) = 256 := by simp [h253]
  exact hindex ▸ .advance h253 hi

section Decoded
variable (hp : s.pc.toNat ≤ 253)
  (hd : decodeWindow opc s.b0 (s.mem.read (s.pc.toNat + 1)) (s.mem.read (s.pc.toNat + 2)) = .ok i)
include hp hd

/-- Rule R202: what a decoded instruction raises is the record of a row whose condition holds. -/
theorem Raises.faultSite {r : Raise} (h : Raises s i r) :
    FaultSite opc s ⟨r.cause, s.pc, r.opcode, r.kind, r.index⟩ := by
  obtain ⟨hop, hinstr⟩ := decodeWindow_ok hd
  cases h with
  | operand hv h7 => exact .register hp i hd _ hv h7
  | push h0 => exact .pushAtZero hp (.inl hop.symm) h0
  | call h0 => exact .pushAtZero hp (.inr hop.symm) h0
  | @pop r htop =>
    have hb1 : s.mem.read (s.pc.toNat + 1) = r := Instr.pop.inj hinstr
    by_cases h7 : r = 7
    · exact .popLoadedTop hp hop.symm (hb1.trans h7) ((if_pos h7).symm.trans htop)
    · exact .popAtTop hp (.inl ⟨hop.symm, hb1 ▸ h7⟩) ((if_neg h7).symm.trans htop)
  | ret htop => exact .popAtTop hp (.inr hop.symm) htop
  | ldi h => exact .of_failed_advance hp h (.inl hop.symm)
  | add h => exact .of_failed_advance hp h (.inr (.inl hop.symm))
  | mul h => exact .of_failed_advance hp h (.inr (.inr (.inl hop.symm)))
  | cmp h => exact .of_failed_advance hp h (.inr (.inr (.inr hop.symm)))
  | beyondFetch h => omega

/-- Where the decoded instruction completes, no row's condition holds: each row names a check that the
completion has passed. -/
theorem Completes.not_faultSite (hc : Completes s i t) (hinj : opc.Injective) (f : FaultRecord) :
    ¬ FaultSite opc s f := by
  obtain ⟨hstack, hadvance⟩ := hc.later_checks
  have decoded {m : Mnemonic} := eq_instrOf_of_decodeWindow hinj hd (m := m)
  have passed {k : Int} : stackFaultIndex s i ≠ some k := by simp [hstack]
  intro hf
  cases hf with
  | fetchWindow h => omega
  | opcode _ hm => exact hm _ (decodeWindow_ok hd).1
  | register _ j hj v hv h7 =>
    obtain rfl := Except.ok.inj (hd.symm.trans hj)
    exact absurd (hc.operand_lt hv) (by omega)
  | pushAtZero _ hi h0 =>
    rcases hi with hi | hi <;> obtain rfl := decoded hi
    · exact passed (if_pos h0)
    · exact passed (if_pos h0)
  | popAtTop _ hi h0 =>
    rcases hi with ⟨hi, h7⟩ | hi <;> obtain rfl := decoded hi
    · exact passed (if_pos ((if_neg h7).trans h0))
    · exact passed (if_pos h0)
  | popLoadedTop _ hi h7 h0 =>
    obtain rfl := decoded hi
    exact passed (if_pos ((if_pos h7).trans h0))
  | advance h253 hi =>
    have hlen : i.length = 3 := by rcases hi with hi | hi | hi | hi <;> rw [decoded hi] <;> rfl
    simp [advanceFaultIndex, hlen, h253] at hadvance

end Decoded

/-- The inversion of a cycle that starts RUNNING: it takes the exception of a listed site, precisely, or it
completes the instruction that the fetched window decodes to. -/
theorem stepWith_running_cases (hr : s.run = .running) (h : stepWith opc s = .next t) :
    (∃ f, FaultSite opc s f ∧ t = { s with run := .halted, fault := some f }) ∨
    (s.pc.toNat ≤ 253 ∧ ∃ i, Completes s i t ∧
      decodeWindow opc s.b0 (s.mem.read (s.pc.toNat + 1)) (s.mem.read (s.pc.toNat + 2)) = .ok i) := by
  rcases stepWith_cases opc s with ⟨hh, _⟩ | ⟨_, hp, he⟩ | ⟨_, hp, hm, he⟩ | ⟨_, hp, i, hd, he⟩
  · cases hr.symm.trans hh
  · exact .inl ⟨_, .fetchWindow hp, Host.Outcome.next.inj (h.symm.trans he)⟩
  · exact .inl ⟨_, .opcode hp hm, Host.Outcome.next.inj (h.symm.trans he)⟩
  · rcases exec_next_cases (he.symm.trans h) with ⟨r, hraise, rfl⟩ | hc
    · exact .inl ⟨_, hraise.faultSite hp hd, rfl⟩
    · exact .inr ⟨hp, i, hc, hd⟩

end Sites

/-- Settles O27: a completion keeps RUN and FAULT unless it is HLT's, and an exception is precise. -/
theorem cycleContinuesHaltsOrFaultsPrecisely : Obligations.CycleContinuesHaltsOrFaultsPrecisely := by
  intro opc s t hr h
  rcases stepWith_running_cases hr h with ⟨f, _, ht⟩ | ⟨_, i, hc, hd⟩
  · exact .inr (.inr ⟨f, ht⟩)
  · rcases hc.run_eq with hrun | ⟨rfl, ht⟩
    · exact .inl ⟨hrun.trans hr, hc.fault_eq⟩
    · exact .inr (.inl ⟨(decodeWindow_ok hd).1.symm, ht⟩)

/-- Settles O28: an exception's record is that of its site, and at a site the cycle cannot complete. -/
theorem faultsHappenExactlyAtTheListedSites : Obligations.FaultsHappenExactlyAtTheListedSites := by
  intro opc s t hinj hr hf h
  rcases stepWith_running_cases hr h with ⟨f, hsite, rfl⟩ | ⟨hp, i, hc, hd⟩
  · refine ⟨fun g hg => ?_, fun _ _ => ⟨rfl, Option.some_ne_none f⟩⟩
    obtain rfl := Option.some.inj hg
    exact hsite
  · refine ⟨fun g hg => ?_, fun g hg => absurd hg (hc.not_faultSite hp hd hinj g)⟩
    cases (hc.fault_eq.trans hf).symm.trans hg

/-- Settles O30: a new record is that of a listed site, and every other outcome leaves FAULT as it was. -/
theorem unsupportedOperationIsNeverRaised : Obligations.UnsupportedOperationIsNeverRaised := by
  intro opc s t h hs
  cases hr : s.run with
  | halted =>
    obtain rfl := Host.Outcome.next.inj ((stepWith_of_halted hr opc).symm.trans h)
    exact hs
  | running =>
    rcases stepWith_running_cases hr h with ⟨f, hsite, rfl⟩ | ⟨_, i, hc, _⟩
    · intro g hg
      obtain rfl := Option.some.inj hg
      exact hsite.cause_ne
    · exact hc.fault_eq ▸ hs

end Sys2Proof.Machine

/-! ### Launch and the next step

The launch state is the reset state with another memory, so `Memory.read_loadFrom` and `Memory.wf_loadFrom` say
all that differs from reset. -/

namespace Sys2Proof.Machine

section Launch
variable {spReset : Byte} {image : List Byte}

/-- Rules R37, R231: launch accepts exactly the images that fit in memory, each with one launch state. -/
theorem launchWith_eq_some_iff {s : State} : launchWith spReset image = some s ↔
    image.length ≤ 256 ∧ s = { State.resetWith spReset with mem := memReset.loadFrom 0 image } := by
  simp only [launchWith, Option.ite_none_right_eq_some, Option.some.injEq]
  exact and_congr_right fun _ => eq_comm

/-- Rules R45, R231: the loaded image is followed by the zeros of reset memory. -/
theorem read_loadFrom_memReset (h : image.length ≤ 256) (a : Nat) :
    (memReset.loadFrom 0 image).read a = image.getD a 0 := by
  rw [Memory.read_loadFrom rfl (by omega)]
  by_cases ha : a < image.length
  · simp [ha]
  · simp [ha, memReset, Memory.unlisted]

end Launch

/-- Settles O2: the inversion of launch, in both directions, and what the loader's writes leave in memory. -/
theorem launchIsResetWithTheImageFromAddressZero : Obligations.LaunchIsResetWithTheImageFromAddressZero := by
  intro spReset image
  constructor
  · intro h
    exact ⟨_, launchWith_eq_some_iff.mpr ⟨h, rfl⟩, fun a _ => read_loadFrom_memReset h a, rfl⟩
  · intro h
    refine Option.eq_none_iff_forall_ne_some.mpr fun s hs => ?_
    obtain ⟨hlen, -⟩ := launchWith_eq_some_iff.mp hs
    omega

/-- Settles O49: the loader's writes keep the canonical form, and the other items are those of reset. -/
theorem launchStateIsLegal : Obligations.LaunchStateIsLegal := by
  intro spReset image s h
  obtain ⟨hlen, rfl⟩ := launchWith_eq_some_iff.mp h
  exact {
    memWf := Memory.wf_loadFrom rfl (by omega)
    runningClean := fun _ => rfl
    outBytes := fun _ hv => nomatch hv
    faultLegal := fun _ hf => nomatch hf }

/-- Settles O26: of the four outcomes of a step, three name their next state and the fourth runs an
instruction. -/
theorem everyStepAnswersANextState : Obligations.EveryStepAnswersANextState := by
  intro opc s
  rcases stepWith_cases opc s with ⟨_, he⟩ | ⟨_, _, he⟩ | ⟨_, _, _, he⟩ | ⟨_, _, i, _, he⟩
  · exact ⟨_, he⟩
  · exact ⟨_, he⟩
  · exact ⟨_, he⟩
  · exact he ▸ exec_next i s

end Sys2Proof.Machine

/-! ### Decode and encode

`encode_instrOf` says in one equation what the thirteen encodings are: the opcode byte, then the operand bytes
that the mnemonic's format declares. -/

namespace Sys2Proof

/-- Rule R80: of the operand bytes B1 and B2, those that the mnemonic's format declares. -/
def Mnemonic.operandBytes (m : Mnemonic) (b1 b2 : Byte) : List Byte := [b1, b2].take m.operandCount

theorem Mnemonic.operandCount_le_two (m : Mnemonic) : m.operandCount ≤ 2 := by cases m <;> decide

@[simp] theorem Mnemonic.length_operandBytes (m : Mnemonic) (b1 b2 : Byte) :
    (m.operandBytes b1 b2).length = m.operandCount := by
  simpa [operandBytes] using m.operandCount_le_two

/-- Every instruction is made of its mnemonic and two operand bytes. -/
theorem Instr.exists_eq_instrOf (i : Instr) : ∃ m b1 b2, i = instrOf m b1 b2 := by
  refine ⟨i.mnemonic, ?_⟩
  cases i with
  | ldi b1 b2 | add b1 b2 | mul b1 b2 | cmp b1 b2 => exact ⟨b1, b2, rfl⟩
  | prn b1 | push b1 | pop b1 | call b1 | jmp b1 | jeq b1 | jne b1 => exact ⟨b1, 0, rfl⟩
  | ret | hlt => exact ⟨0, 0, rfl⟩

theorem encode_instrOf (opc : OpcodeMap) (m : Mnemonic) (b1 b2 : Byte) :
    encode opc (instrOf m b1 b2) = opc m :: m.operandBytes b1 b2 := by
  cases m <;> rfl

/-- Rule R85: an instruction is made of its declared operand bytes, whatever bytes follow them. -/
theorem instrOf_operandBytes_append (m : Mnemonic) (b1 b2 : Byte) (rest : List Byte) :
    instrOf m ((m.operandBytes b1 b2 ++ rest).getD 0 0) ((m.operandBytes b1 b2 ++ rest).getD 1 0) =
      instrOf m b1 b2 := by
  cases m <;> rfl

/-- The inversion of the byte-list decoder, in both directions. -/
theorem decode_ok_iff {opc : OpcodeMap} {bytes rest : List Byte} {i : Instr} :
    decode opc bytes = .ok (i, rest) ↔ ∃ b0 operands m, bytes = b0 :: operands ∧
      recognise opc b0 = some m ∧ m.operandCount ≤ operands.length ∧
      instrOf m (operands.getD 0 0) (operands.getD 1 0) = i ∧ operands.drop m.operandCount = rest := by
  cases bytes with
  | nil => simp [decode]
  | cons b0 operands =>
    cases hm : recognise opc b0 with
    | none => simp [decode, hm]
    | some m =>
      by_cases hlen : operands.length < m.operandCount
      · simp [decode, hm, hlen]
      · simp [decode, hm, hlen, Nat.not_lt.mp hlen]

/-- Settles O17: the opcode byte is recognised as its own mnemonic, and the declared bytes are read back. -/
theorem decodeOfEncodeIsTheInstruction : Obligations.DecodeOfEncodeIsTheInstruction := by
  intro opc i rest hinj
  obtain ⟨m, b1, b2, rfl⟩ := i.exists_eq_instrOf
  rw [encode_instrOf, List.cons_append]
  exact decode_ok_iff.mpr ⟨opc m, m.operandBytes b1 b2 ++ rest, m, rfl, recognise_opc hinj m, by simp,
    instrOf_operandBytes_append m b1 b2 rest, List.drop_left' (m.length_operandBytes b1 b2)⟩

/-- The bytes a format declares are the first ones of an operand list that is long enough for it. -/
theorem Mnemonic.operandBytes_getD {m : Mnemonic} {operands : List Byte}
    (h : m.operandCount ≤ operands.length) :
    m.operandBytes (operands.getD 0 0) (operands.getD 1 0) = operands.take m.operandCount := by
  have htwo := m.operandCount_le_two
  refine List.ext_getElem (by simpa using h) fun k hk _ => ?_
  rw [m.length_operandBytes] at hk
  obtain rfl | rfl : k = 0 ∨ k = 1 := by omega
  · simp [operandBytes, show 0 < operands.length by omega]
  · simp [operandBytes, show 1 < operands.length by omega]

/-- Settles O18: the encoding is B0 and the first operand bytes, and the rest is what follows them. -/
theorem encodeOfDecodeIsTheBytes : Obligations.EncodeOfDecodeIsTheBytes := by
  intro opc bytes rest i h
  obtain ⟨b0, operands, m, rfl, hm, hlen, rfl, rfl⟩ := decode_ok_iff.mp h
  rw [encode_instrOf, recognise_some hm, Mnemonic.operandBytes_getD hlen, List.cons_append,
    List.take_append_drop]

/-! ### The default opcode map -/

/-- A map that `recognise` inverts is injective. -/
theorem OpcodeMap.injective_of_recognise {opc : OpcodeMap} (h : ∀ m, recognise opc (opc m) = some m) :
    opc.Injective := by
  intro m m' he
  exact Option.some.inj ((h m).symm.trans (he ▸ h m'))

theorem defaultOpc_injective : defaultOpc.Injective :=
  OpcodeMap.injective_of_recognise fun m => by cases m <;> rfl

theorem Mnemonic.nodup_all : Mnemonic.all.Nodup := by decide

/-- Rule R91: the recognised byte values are the thirteen opcode bytes, each once. -/
theorem recognised_perm {opc : OpcodeMap} (hinj : opc.Injective) :
    ((List.range 256).filter fun b => !(recognise opc (BitVec.ofNat 8 b)).isNone).Perm
      (Mnemonic.all.map fun m => (opc m).toNat) := by
  refine (List.perm_ext_iff_of_nodup (List.nodup_range.filter _) ?_).mpr fun b => ?_
  · exact Mnemonic.nodup_all.map fun m m' h => hinj m m' (BitVec.eq_of_toNat_eq h)
  · simp only [List.mem_filter, List.mem_range, List.mem_map, Bool.not_eq_true', Option.isNone_eq_false_iff,
      Option.isSome_iff_exists]
    constructor
    · rintro ⟨hb, m, hm⟩
      exact ⟨m, m.mem_all, by rw [recognise_some hm, BitVec.toNat_ofNat, Nat.mod_eq_of_lt hb]⟩
    · rintro ⟨m, -, rfl⟩
      exact ⟨(opc m).isLt, m, by rw [BitVec.ofNat_toNat, BitVec.setWidth_eq, recognise_opc hinj m]⟩

/-- Rule R92: an injective map leaves 256 - 13 byte values unrecognised. -/
theorem length_unrecognised {opc : OpcodeMap} (hinj : opc.Injective) :
    ((List.range 256).filter fun b => (recognise opc (BitVec.ofNat 8 b)).isNone).length = 243 := by
  have hsplit := List.length_eq_length_filter_add (l := List.range 256)
    fun b => (recognise opc (BitVec.ofNat 8 b)).isNone
  rw [(recognised_perm hinj).length_eq, List.length_range, List.length_map] at hsplit
  have hall : Mnemonic.all.length = 13 := rfl
  omega

/-- Settles O21: the map's two properties by the lemmas above, each word by running the decoder on it. -/
theorem defaultOpcodeWordsDecode : Obligations.DefaultOpcodeWordsDecode :=
  ⟨defaultOpc_injective, length_unrecognised defaultOpc_injective, by decide⟩

end Sys2Proof

/-! ### Frames

What an instruction keeps, item by item: an exception keeps every item but RUN and FAULT, and for a completion
there is a lemma per item. Registers and FL are the first clauses of O37 and O38. -/

namespace Sys2Proof.Machine

section Frames
variable {s t : State} {i : Instr}

/-- Rule R23, the "written" column, for every next state. -/
theorem exec_getReg_eq (h : exec i s = .next t) {k : RegIdx} (hw : writesReg k i = false) :
    t.getReg k = s.getReg k := registersReadAndWritten.1 i s t k h hw

/-- Rule R28: only CMP writes FL. -/
theorem exec_fl_eq (h : exec i s = .next t) (hcmp : i.mnemonic ≠ .cmp) : t.fl = s.fl :=
  flagWrittenByCmpReadByJumps.1 i s t h fun _ _ hi => hcmp (congrArg Instr.mnemonic hi)

/-- Rule R38: only PRN emits. -/
theorem exec_out_eq (h : exec i s = .next t) (hprn : i.mnemonic ≠ .prn) : t.out = s.out := by
  rcases exec_next_cases h with ⟨r, _, rfl⟩ | hc
  · rfl
  · rcases hc.out_eq with ho | ⟨r, _, rfl, _⟩
    · exact ho
    · exact absurd rfl hprn

/-- Rule R34: only PUSH and CALL store. -/
theorem exec_mem_eq (h : exec i s = .next t) (hi : i.mnemonic ∉ [.push, .call]) : t.mem = s.mem := by
  rcases exec_next_cases h with ⟨r, _, rfl⟩ | hc
  · rfl
  · rcases hc.mem_eq with hm | ⟨hstores, _⟩
    · exact hm
    · exact absurd hstores (by simpa using hi)

/-- Rule R205: RUN and FAULT are changed together by an exception, and RUN also by HLT. -/
theorem exec_run_fault (h : exec i s = .next t) :
    (t.fault = s.fault ∧ (i ≠ .hlt → t.run = s.run)) ∨ FaultedFrom s t := by
  rcases exec_next_cases h with ⟨r, _, rfl⟩ | hc
  · exact .inr ⟨_, rfl⟩
  · exact .inl ⟨hc.fault_eq, fun hi => hc.run_eq.resolve_right fun hhlt => hi hhlt.1⟩

theorem exec_run_fault_of_ne_hlt (h : exec i s = .next t) (hi : i ≠ .hlt) :
    (t.run = s.run ∧ t.fault = s.fault) ∨ FaultedFrom s t :=
  (exec_run_fault h).imp_left fun ⟨hfault, hrun⟩ => ⟨hrun hi, hfault⟩

/-- LDI, ADD, MUL, POP and RET change nothing but registers and `pc`, or take an exception. -/
theorem exec_changes_registers_only (h : exec i s = .next t)
    (hi : i.mnemonic ∈ [.ldi, .add, .mul, .pop, .ret]) :
    t.fl = s.fl ∧ t.out = s.out ∧ (∀ a, t.mem.read a = s.mem.read a) ∧
      ((t.run = s.run ∧ t.fault = s.fault) ∨ FaultedFrom s t) := by
  have hne : ∀ m ∉ [Mnemonic.ldi, .add, .mul, .pop, .ret], i.mnemonic ≠ m :=
    fun _ => ne_of_mem_of_not_mem hi
  have hmem : t.mem = s.mem := exec_mem_eq h (by simp [hne])
  exact ⟨exec_fl_eq h (hne _ (by decide)), exec_out_eq h (hne _ (by decide)), fun a => by rw [hmem],
    exec_run_fault_of_ne_hlt h fun e => hne .hlt (by decide) (e ▸ rfl)⟩

/-- Rule R165: a completed PUSH or CALL stores one byte, at the address `pushAddress` computes. -/
theorem Completes.stores (hc : Completes s i t) (hi : i.mnemonic ∈ [.push, .call]) :
    ∃ a v : Byte, pushAddress s = .ok a ∧ t.mem = s.mem.write a.toNat v := by
  cases hc with
  | push _ hs | call _ hs => exact ⟨s.sp - 1, _, pushAddress_ok hs, rfl⟩
  | _ => simp [Instr.mnemonic] at hi

/-- PUSH and CALL leave alone every byte that is not at the address `pushAddress` computes, so all of memory
where it raises. -/
theorem exec_read_eq_of_stores (h : exec i s = .next t) (hi : i.mnemonic ∈ [.push, .call]) {b : Nat}
    (hb : ∀ a : Byte, pushAddress s = .ok a → b ≠ a.toNat) : t.mem.read b = s.mem.read b := by
  rcases exec_next_cases h with ⟨r, _, rfl⟩ | hc
  · rfl
  · obtain ⟨a, v, ha, hm⟩ := hc.stores hi
    rw [hm, Memory.read_write_of_ne s.mem v (hb a ha)]

end Frames

/-- Settles O33: the three write their destination register only. -/
theorem ldiAddMulFrame : Obligations.LdiAddMulFrame := by
  intro i d v s t hi h
  have hregs : i.mnemonic ∈ [.ldi, .add, .mul, .pop, .ret] := by
    rcases hi with rfl | rfl | rfl <;> simp [Instr.mnemonic]
  have hwrites (k : RegIdx) (hk : k.val ≠ d.toNat) : writesReg k i = false := by
    rcases hi with rfl | rfl | rfl <;> simpa [writesReg] using hk
  exact ⟨fun k hk => exec_getReg_eq h (hwrites k hk), exec_changes_registers_only h hregs⟩

/-- Settles O34: none of the six writes a register or stores, and only CMP and PRN touch FL and OUT. -/
theorem prnCmpJumpHltFrame : Obligations.PrnCmpJumpHltFrame := by
  intro i r b s t hi h
  have hwrites (k : RegIdx) : writesReg k i = false := by
    rcases hi with rfl | rfl | rfl | rfl | rfl | rfl <;> rfl
  have hstores : i.mnemonic ∉ [.push, .call] := by
    rcases hi with rfl | rfl | rfl | rfl | rfl | rfl <;> simp [Instr.mnemonic]
  have hcmp (hne : i ≠ .cmp r b) : i.mnemonic ≠ .cmp := by
    rcases hi with rfl | rfl | rfl | rfl | rfl | rfl <;> simp_all [Instr.mnemonic]
  have hprn (hne : i ≠ .prn r) : i.mnemonic ≠ .prn := by
    rcases hi with rfl | rfl | rfl | rfl | rfl | rfl <;> simp_all [Instr.mnemonic]
  exact ⟨fun k => exec_getReg_eq h (hwrites k), fun a => by rw [exec_mem_eq h hstores],
    fun hne => exec_fl_eq h (hcmp hne), fun hne => exec_out_eq h (hprn hne), exec_run_fault h⟩

/-- Settles O35: the two write R7 only, and store only where `pushAddress` says. -/
theorem pushCallFrame : Obligations.PushCallFrame := by
  intro i r s t hi h
  have hstores : i.mnemonic ∈ [.push, .call] := by rcases hi with rfl | rfl <;> simp [Instr.mnemonic]
  have hne : ∀ m ∉ [Mnemonic.push, .call], i.mnemonic ≠ m := fun _ => ne_of_mem_of_not_mem hstores
  have hwrites (k : RegIdx) (hk : k ≠ 7) : writesReg k i = false := by
    rcases hi with rfl | rfl <;> simpa [writesReg] using hk
  refine ⟨fun k hk => exec_getReg_eq h (hwrites k hk), exec_fl_eq h (hne _ (by decide)),
    exec_out_eq h (hne _ (by decide)), fun a ha b hb => ?_, fun e he b => ?_,
    exec_run_fault_of_ne_hlt h fun e => hne .hlt (by decide) (e ▸ rfl)⟩
  · exact exec_read_eq_of_stores h hstores fun a' ha' => Except.ok.inj (ha.symm.trans ha') ▸ hb
  · exact exec_read_eq_of_stores h hstores fun a' ha' => nomatch he.symm.trans ha'

/-- Settles O36: POP writes its destination and R7, RET writes R7 only. -/
theorem popRetFrame : Obligations.PopRetFrame := by
  refine fun i s t h => ⟨?_, ?_⟩
  · rintro r rfl
    have hwrites (k : RegIdx) (hk : k.val ≠ r.toNat) (hk7 : k ≠ 7) : writesReg k (.pop r) = false := by
      simp [writesReg, hk, hk7]
    exact ⟨fun k hk hk7 => exec_getReg_eq h (hwrites k hk hk7),
      exec_changes_registers_only h (by simp [Instr.mnemonic])⟩
  · rintro rfl
    have hwrites (k : RegIdx) (hk : k ≠ 7) : writesReg k .ret = false := by simpa [writesReg] using hk
    exact ⟨fun k hk => exec_getReg_eq h (hwrites k hk),
      exec_changes_registers_only h (by simp [Instr.mnemonic])⟩

end Sys2Proof.Machine
